-- ==== Sys2Proof/Word.lean ====
section
/-! DEFINITION. The machine's words: the widths of spec/00_scope.md R3. -/

namespace Sys2Proof

/-- The processor word, the memory word and the instruction word: 16 bits (R3, R60). -/
abbrev Word := BitVec 16

/-- One byte: half a word (R46); the immediate operand of LI (R67). -/
abbrev Byte := BitVec 8

/-- A 12-bit address inside a page (R41). -/
abbrev Offset := BitVec 12

/-- A 28-bit memory word address: page number ++ offset (R41). -/
abbrev WordAddr := BitVec 28

/-- A 12-bit I/O port address (R45). -/
abbrev Port := BitVec 12

end Sys2Proof
end

