-- ==== Sys2Proof/Syntax.lean ====
section
/-! DEFINITION. The sixteen instructions (spec/30_encoding.md R70), one constructor per row of spec/opcode_table.json, and
the names their operands use. Ignored bits of a word (R71) are no part of an instruction. -/

namespace Sys2Proof

/-- The sixteen registers R0 to R15 under the names of R12: R8 is the accumulator, R9 RS, R10 RJ, R11 RC, R12 RD,
R13 RX, R14 RB, R15 PC. -/
inductive Reg
  | r0 | r1 | r2 | r3 | r4 | r5 | r6 | r7
  | acc | rs | rj | rc | rd | rx | rb | pc
  deriving DecidableEq, Repr

/-- The field lb of LI: which byte of the accumulator is written (R85). -/
inductive ByteSel
  | lower
  | upper
  deriving DecidableEq, Repr

/-- The field ind of SHIFT: the direction (R108). -/
inductive Direction
  | left
  | right
  deriving DecidableEq, Repr

/-- The instructions, operands in the order of the syntax of R74 (`ADD r3, r1, r2`: destination, first operand,
second operand): dst is the field r3, fst is r1, snd is r2, and src is the one source of MOV, NOT and SHIFT. -/
inductive Instr
  /-- NOP (R82). -/
  | nop
  /-- LI lb, podatak (R85). -/
  | li (lb : ByteSel) (podatak : Byte)
  /-- LOAD adresa (R90). -/
  | load (adresa : Offset)
  /-- STORE adresa (R91). -/
  | store (adresa : Offset)
  /-- ADD r3, r1, r2 (R96). -/
  | add (dst fst snd : Reg)
  /-- SUB r3, r1, r2 (R97): r1 is the minuend. -/
  | sub (dst fst snd : Reg)
  /-- MOV r3, rs (R105). -/
  | mov (dst src : Reg)
  /-- NOT r3, rs (R107). -/
  | notReg (dst src : Reg)
  /-- OR r3, r1, r2 (R98). -/
  | orReg (dst fst snd : Reg)
  /-- AND r3, r1, r2 (R99). -/
  | andReg (dst fst snd : Reg)
  /-- XOR r3, r1, r2 (R100). -/
  | xorReg (dst fst snd : Reg)
  /-- SHIFT ind, r, np (R108). The count is a number; R108: a shift by 16 or more cannot be encoded (WellFormed). -/
  | shift (ind : Direction) (src : Reg) (np : Nat)
  /-- JUMP maska (R110): bits J, P, O, C, N, Z from bit 5 down to bit 0 (R68). -/
  | jump (maska : BitVec 6)
  /-- IN adresa (R115). -/
  | inPort (adresa : Port)
  /-- OUT adresa (R116). -/
  | outPort (adresa : Port)
  /-- HALT (R118). -/
  | halt
  deriving DecidableEq, Repr

/-- The operation code of each instruction (R70). -/
def Instr.opcode : Instr → BitVec 4
  | .nop => 0x0
  | .li _ _ => 0x1
  | .load _ => 0x2
  | .store _ => 0x3
  | .add _ _ _ => 0x4
  | .sub _ _ _ => 0x5
  | .mov _ _ => 0x6
  | .notReg _ _ => 0x7
  | .orReg _ _ _ => 0x8
  | .andReg _ _ _ => 0x9
  | .xorReg _ _ _ => 0xA
  | .shift _ _ _ => 0xB
  | .jump _ => 0xC
  | .inPort _ => 0xD
  | .outPort _ => 0xE
  | .halt => 0xF

/-- The pseudo-instruction MVAC Ri: copy a register to the accumulator (R76, R106). -/
def Instr.mvac (ri : Reg) : Instr := .mov .acc ri

/-- The pseudo-instruction MVR Ri: copy the accumulator to a register (R76, R106). -/
def Instr.mvr (ri : Reg) : Instr := .mov ri .acc

end Sys2Proof
end

