-- ==== Sys2Proof/WellFormed.lean ====
section
/-! DEFINITION. Which terms of Instr the encoding can hold. Every other operand's type has exactly the width of its field,
so the one check is the shift count (spec/44_two_address_mov_not_shift.md R108). -/

namespace Sys2Proof

/-- R108: np is 0 to 15; a shift by 16 or more cannot be encoded. -/
def Instr.wellFormed : Instr → Bool
  | .shift _ _ np => np < 16
  | .nop | .li _ _ | .load _ | .store _ | .add _ _ _ | .sub _ _ _ | .mov _ _ | .notReg _ _
  | .orReg _ _ _ | .andReg _ _ _ | .xorReg _ _ _ | .jump _ | .inPort _ | .outPort _ | .halt => true

/-- The check as a proposition. -/
abbrev Instr.WellFormed (i : Instr) : Prop := i.wellFormed = true

end Sys2Proof
end

