-- ==== Sys2Proof/Decode.lean ====
section
/-! DEFINITION. Words and instructions (spec/30_encoding.md): the fields of R62 to R69, the decoder of R70 to R73, total on
words and on bytes, and the encoder, which writes 0 in every ignored bit (R74). -/

namespace Sys2Proof

/-- The 4-bit number of a register (R12). -/
def Reg.bits : Reg → BitVec 4
  | .r0 => 0 | .r1 => 1 | .r2 => 2 | .r3 => 3 | .r4 => 4 | .r5 => 5 | .r6 => 6 | .r7 => 7
  | .acc => 8 | .rs => 9 | .rj => 10 | .rc => 11 | .rd => 12 | .rx => 13 | .rb => 14 | .pc => 15

/-- The register a 4-bit number selects (R10, R12). -/
def Reg.ofBits (b : BitVec 4) : Reg :=
  match b.toNat with
  | 0 => .r0 | 1 => .r1 | 2 => .r2 | 3 => .r3 | 4 => .r4 | 5 => .r5 | 6 => .r6 | 7 => .r7
  | 8 => .acc | 9 => .rs | 10 => .rj | 11 => .rc | 12 => .rd | 13 => .rx | 14 => .rb
  | _ => .pc  -- 15, the only number left

/-- lb as a bit: 0 = lower byte, 1 = upper byte (R73). -/
def ByteSel.bit : ByteSel → BitVec 1
  | .lower => 0
  | .upper => 1

/-- lb from its bit (R73). -/
def ByteSel.ofBit (b : BitVec 1) : ByteSel := if b = 0 then .lower else .upper

/-- ind as a bit: 0 = left, 1 = right (R73). -/
def Direction.bit : Direction → BitVec 1
  | .left => 0
  | .right => 1

/-- ind from its bit (R73). -/
def Direction.ofBit (b : BitVec 1) : Direction := if b = 0 then .left else .right

/-- COP, I[15:12] (R61). -/
def copField (w : Word) : BitVec 4 := w.extractLsb' 12 4

/-- r3, I[11:8] (R64, R65). -/
def r3Field (w : Word) : Reg := .ofBits (w.extractLsb' 8 4)

/-- r2 of format R3, and the source rs of formats R2 and S: I[7:4] (R64, R65, R66). -/
def r2Field (w : Word) : Reg := .ofBits (w.extractLsb' 4 4)

/-- r1, I[3:0] (R64). -/
def r1Field (w : Word) : Reg := .ofBits (w.extractLsb' 0 4)

/-- adresa, I[11:0] (R63). -/
def adresaField (w : Word) : BitVec 12 := w.extractLsb' 0 12

/-- The instruction a word stands for: COP alone selects it (R61, R70) and every word is one (R72). -/
def decodeWord (w : Word) : Instr :=
  match (copField w).toNat with
  | 0 => .nop
  | 1 => .li (.ofBit (w.extractLsb' 8 1)) (w.extractLsb' 0 8)
  | 2 => .load (adresaField w)
  | 3 => .store (adresaField w)
  | 4 => .add (r3Field w) (r1Field w) (r2Field w)
  | 5 => .sub (r3Field w) (r1Field w) (r2Field w)
  | 6 => .mov (r3Field w) (r2Field w)
  | 7 => .notReg (r3Field w) (r2Field w)
  | 8 => .orReg (r3Field w) (r1Field w) (r2Field w)
  | 9 => .andReg (r3Field w) (r1Field w) (r2Field w)
  | 10 => .xorReg (r3Field w) (r1Field w) (r2Field w)
  | 11 => .shift (.ofBit (w.extractLsb' 8 1)) (r2Field w) (w.extractLsb' 0 4).toNat
  | 12 => .jump (w.extractLsb' 0 6)
  | 13 => .inPort (adresaField w)
  | 14 => .outPort (adresaField w)
  | _ => .halt  -- 15, the only value of the four bits left

/-- The bits of a word its instruction depends on, by operation code (R71, D20): the fields and COP; the others are ignored. -/
def careMask (cop : BitVec 4) : Word :=
  match cop.toNat with
  | 0 | 15 => 0xF000       -- NOP, HALT
  | 1 => 0xF1FF            -- LI
  | 6 | 7 => 0xFFF0        -- MOV, NOT
  | 11 => 0xF1FF           -- SHIFT
  | 12 => 0xF03F           -- JUMP
  | _ => 0xFFFF            -- LOAD, STORE, IN, OUT and the three-address formats use every bit

/-- The canonical word of an instruction: the fields of R62 to R69, 0 in every ignored bit (R74). A count that is not well
formed is cut to its low four bits (log 22). -/
def encode : Instr → Word
  | .nop => 0x0#4 ++ 0#12
  | .li lb podatak => 0x1#4 ++ (0#3 ++ (lb.bit ++ podatak))
  | .load adresa => 0x2#4 ++ adresa
  | .store adresa => 0x3#4 ++ adresa
  | .add dst fst snd => 0x4#4 ++ (dst.bits ++ (snd.bits ++ fst.bits))
  | .sub dst fst snd => 0x5#4 ++ (dst.bits ++ (snd.bits ++ fst.bits))
  | .mov dst src => 0x6#4 ++ (dst.bits ++ (src.bits ++ 0#4))
  | .notReg dst src => 0x7#4 ++ (dst.bits ++ (src.bits ++ 0#4))
  | .orReg dst fst snd => 0x8#4 ++ (dst.bits ++ (snd.bits ++ fst.bits))
  | .andReg dst fst snd => 0x9#4 ++ (dst.bits ++ (snd.bits ++ fst.bits))
  | .xorReg dst fst snd => 0xA#4 ++ (dst.bits ++ (snd.bits ++ fst.bits))
  | .shift ind src np => 0xB#4 ++ (0#3 ++ (ind.bit ++ (src.bits ++ BitVec.ofNat 4 np)))
  | .jump maska => 0xC#4 ++ (0#6 ++ maska)
  | .inPort adresa => 0xD#4 ++ adresa
  | .outPort adresa => 0xE#4 ++ adresa
  | .halt => 0xF#4 ++ 0#12

/-- The lower byte of a word, bits 7..0 (R46). -/
def lowByte (w : Word) : Byte := w.extractLsb' 0 8

/-- The upper byte of a word, bits 15..8 (R46). -/
def highByte (w : Word) : Byte := w.extractLsb' 8 8

/-- The word of an upper and a lower byte (R46). -/
def wordOf (high low : Byte) : Word := high ++ low

/-- The bytes of a word as the model's memory lays them out, lower byte first (log 4: not observable). -/
def bytesOf (w : Word) : List Byte := [lowByte w, highByte w]

/-- Why the byte decoder gives no instruction. -/
inductive DecodeError
  /-- Fewer bytes than the one word an instruction takes (R60). No word is refused (R72). Safe. -/
  | truncated
  deriving DecidableEq, Repr

/-- The instruction at the front of a list of bytes, and the bytes after it (R60: one word each). -/
def decode : List Byte → Except DecodeError (Instr × List Byte)
  | low :: high :: rest => .ok (decodeWord (wordOf high low), rest)
  | _ => .error .truncated

/-- An instruction as bytes. -/
def encodeBytes (i : Instr) : List Byte := bytesOf (encode i)

/-- The decoder on an opcode-table word of `nbits` bits, the bits above them 0. -/
def decodeTableWord (nbits w : Nat) : Option Instr :=
  match decode (bytesOf (BitVec.ofNat 16 (w % 2 ^ nbits))) with
  | .ok (i, _) => some i
  | .error _ => none

end Sys2Proof
end

