-- ==== Sys2Proof/Config.lean ====
section
/-! DEFINITION. The parameters R3 of spec/00_scope.md leaves to a platform, as plain data, and the free values: constants
without a body, so that no proof can know them (R7 `any1`, `any16`; log 10). -/

namespace Sys2Proof

/-- What backs a memory word (parameter MEM_MAP, R50). -/
inductive MemKind
  | readWrite
  | readOnly
  | absent
  deriving DecidableEq, Repr

/-- One region of MEM_MAP: `size` words from word address `base` on, all of one kind (R50). -/
structure Region where
  base : Nat
  size : Nat
  kind : MemKind
  deriving DecidableEq, Repr

/-- What a STORE to read-only memory does on this platform (U9; log 6). -/
inductive RomStore
  | dropped
  | faults
  deriving DecidableEq, Repr

/-- The parameter SUB_CARRY: what C means after SUB (R97, D14). `unset` leaves C free (U1; log 7). -/
inductive SubCarry
  | carryOut
  | borrow
  | unset
  deriving DecidableEq, Repr

/-- The parameter SHIFT_FLAGS: the status bits SHIFT writes (R108, D17; log 8). -/
inductive ShiftFlags
  | znp
  | any
  deriving DecidableEq, Repr

/-- The parameters of one machine (R3). No step changes them (log 27). -/
structure Params where
  resetRc : Word
  resetPc : Word
  memMap : List Region
  romStore : RomStore
  subCarry : SubCarry
  shiftFlags : ShiftFlags
  deriving DecidableEq, Repr

/-- The defaults of R3: entry point 0, every word read-write, SUB_CARRY unset, SHIFT_FLAGS = ZNP.
DESIGN CHOICE: a STORE to read-only memory is dropped (log 6). -/
def Params.default : Params :=
  { resetRc := 0x0000, resetPc := 0x0000, memMap := [], romStore := .dropped,
    subCarry := .unset, shiftFlags := .znp }

/-- One word sent to a port by OUT (R116). -/
structure IoEvent where
  port : Port
  value : Word
  deriving DecidableEq, Repr

/-- One word a device holds ready for an IN at its port (R115; log 11). -/
structure IoAnswer where
  port : Port
  value : Word
  deriving DecidableEq, Repr

namespace Config

/-- A free bit (`any1` of R7): the `draw`-th value drawn, by an instruction whose operands are `a` and `b` (log 10). -/
opaque freeBit (draw : Nat) (a b : Word) : Bool

/-- A free word (`any16` of R7): the `draw`-th value drawn (log 10, log 14). -/
opaque freeWord (draw : Nat) : Word

/-- What the device at `port` answers to an IN, after the words `sent` so far: a free value (R45, R115; log 11). -/
opaque ioAnswer (draw : Nat) (port : Port) (sent : List IoEvent) : Word

end Config

end Sys2Proof
end

