-- ==== Sys2Proof/Machine/State.lean ====
section
/-! DEFINITION. The state of the machine (spec/10_state.md), as plain data: the register file, the halted flag, memory, the
devices' side of the ports, the platform's parameters, the counter of free draws; and the state after reset. -/

namespace Sys2Proof.Machine

/-- The register file: sixteen registers of 16 bits (R10), under the names of R12. The two bytes of the accumulator are its
bits 7..0 and 15..8 (R13); the status bits are bits 4..0 of RS (R14). -/
structure RegFile where
  r0 : Word
  r1 : Word
  r2 : Word
  r3 : Word
  r4 : Word
  r5 : Word
  r6 : Word
  r7 : Word
  /-- R8, the accumulator RA (R13). -/
  acc : Word
  /-- R9, the status register (R14). -/
  rs : Word
  /-- R10, the jump register (R24). -/
  rj : Word
  /-- R11, the program page register (R25). -/
  rc : Word
  /-- R12, the data page register (R26). -/
  rd : Word
  /-- R13, the index register (R27). -/
  rx : Word
  /-- R14, the base register (R27). -/
  rb : Word
  /-- R15, the program counter (R28). -/
  pc : Word
  deriving DecidableEq, Repr

/-- The five status bits of RS (R14). -/
inductive Flag
  | z
  | n
  | c
  | o
  | p
  deriving DecidableEq, Repr

/-- Memory (R32, R40): (byte address, byte) pairs. Word a stands at byte addresses 2a and 2a + 1 (log 4). Its canonical form
is `Memory.wf` of Machine/Ops.lean. -/
abbrev Memory := List Host.Cell

/-- The state of one TFaCo processor and what it talks to. -/
structure State where
  /-- R0 to R15 (R10). -/
  regs : RegFile
  /-- The halt state (R31). -/
  halted : Bool
  /-- Memory (R32). -/
  mem : Memory
  /-- The words OUT has sent, oldest first (R45, R116, R119). -/
  ioEvents : List IoEvent
  /-- The words devices hold ready for IN (R45; the model's own field, log 11). -/
  ioAnswers : List IoAnswer
  /-- The platform's parameters (R3); no step changes them (log 27). -/
  params : Params
  /-- How many free values have been drawn (the model's own field, log 10). -/
  draws : Nat
  deriving DecidableEq, Repr

/-- Why the model stops. The architecture has no exception (R120); these are the model's own stops (R132). -/
inductive Fault
  /-- A fetch, LOAD or STORE at a word that MEM_MAP does not back (R50, U9). Raised by `State.loadWord` and
  `State.storeWord`. Safe: the spec gives the access no effect. -/
  | absentWord (addr : WordAddr)
  /-- A STORE to a read-only word on a platform that makes it a fault (R132, U9). Raised by `State.storeWord`. Safe: the
  spec leaves it to the platform, and the parameter says which. -/
  | readOnlyWord (addr : WordAddr)
  deriving DecidableEq, Repr

/-- Why an instruction is refused. No arm of exec refuses. -/
inductive Refusal
  /-- The instruction of that mnemonic has no meaning in the model. Raised by no one: all sixteen are modelled. Safe. -/
  | notModelled (mnemonic : String)
  deriving DecidableEq, Repr

/-- The register file after reset: PC and RC at the parameters (R34, R140). DESIGN CHOICE, unsafe: the registers the spec
leaves unspecified (R34 any16) are 0x0000 (log 1). -/
def RegFile.reset (params : Params) : RegFile :=
  { r0 := 0, r1 := 0, r2 := 0, r3 := 0, r4 := 0, r5 := 0, r6 := 0, r7 := 0,
    acc := 0, rs := 0, rj := 0, rc := params.resetRc, rd := 0, rx := 0, rb := 0, pc := params.resetPc }

/-- The machine right after reset (R34, R140): not halted, nothing listed in memory, nothing sent to or queued at a port,
the default parameters (R3). -/
def State.reset : State :=
  { regs := .reset .default, halted := false, mem := [], ioEvents := [], ioAnswers := [],
    params := .default, draws := 0 }

end Sys2Proof.Machine
end

