-- ==== Sys2Proof/Machine/Ops.lean ====
section
/-! DEFINITION. The primitives of spec/00_scope.md R7 and spec/20_memory.md: register read and write, MemRead, MemWrite,
IoRead, IoWrite, free draws, the fetch of R80, and the reset of R140. The architecture has no exception, interrupt, trap
entry or trap return (R120 to R124), so there is no operation for one. -/

namespace Sys2Proof.Machine

/-- What a meaning and a step answer. -/
abbrev StepResult := Host.Outcome State Fault Refusal

/-- Go on with a value, or stop with the fault that took its place. -/
def orFault {α : Type} (r : Except Fault α) (k : α → StepResult) : StepResult :=
  match r with
  | .ok x => k x
  | .error f => .fault f

/-! Registers -/

/-- x[i] (R7). -/
def RegFile.get (f : RegFile) : Reg → Word
  | .r0 => f.r0 | .r1 => f.r1 | .r2 => f.r2 | .r3 => f.r3
  | .r4 => f.r4 | .r5 => f.r5 | .r6 => f.r6 | .r7 => f.r7
  | .acc => f.acc | .rs => f.rs | .rj => f.rj | .rc => f.rc
  | .rd => f.rd | .rx => f.rx | .rb => f.rb | .pc => f.pc

/-- x[i] <- v (R7). No register is hardwired (R10). -/
def RegFile.set (f : RegFile) (r : Reg) (v : Word) : RegFile :=
  match r with
  | .r0 => { f with r0 := v } | .r1 => { f with r1 := v } | .r2 => { f with r2 := v } | .r3 => { f with r3 := v }
  | .r4 => { f with r4 := v } | .r5 => { f with r5 := v } | .r6 => { f with r6 := v } | .r7 => { f with r7 := v }
  | .acc => { f with acc := v } | .rs => { f with rs := v } | .rj => { f with rj := v } | .rc => { f with rc := v }
  | .rd => { f with rd := v } | .rx => { f with rx := v } | .rb => { f with rb := v } | .pc => { f with pc := v }

/-- Read a register of the state. -/
def State.reg (s : State) (r : Reg) : Word := s.regs.get r

/-- Write a register of the state. -/
def State.setReg (s : State) (r : Reg) (v : Word) : State := { s with regs := s.regs.set r v }

/-! Memory, byte by byte -/

/-- What an address no cell lists reads as. DESIGN CHOICE, unsafe (log 3): the spec gives memory no contents at reset. -/
def unlistedByte : Byte := 0x00

/-- The number of byte addresses: 2^28 words of two bytes (R44). -/
def memoryBytes : Nat := 2 ^ 29

/-- The byte at a byte address. -/
def Memory.readByte : Memory → Nat → Byte
  | [], _ => unlistedByte
  | (k, b) :: m, a => if k = a then b else Memory.readByte m a

/-- The cells of a memory but those at one address. -/
def Memory.remove (m : Memory) (a : Nat) : Memory := m.filter fun cell => cell.1 != a

/-- Put a cell before the first cell of a higher address. -/
def Memory.insert (a : Nat) (v : Byte) : Memory → Memory
  | [] => [(a, v)]
  | (k, b) :: m => if a < k then (a, v) :: (k, b) :: m else (k, b) :: Memory.insert a v m

/-- Write one byte. Writing what an unlisted address reads as leaves the address unlisted. -/
def Memory.writeByte (m : Memory) (a : Nat) (v : Byte) : Memory :=
  if v = unlistedByte then m.remove a else (m.remove a).insert a v

/-- The addresses of the cells strictly rise. -/
def Memory.rising : Memory → Bool
  | (a, _) :: (b, c) :: m => a < b && Memory.rising ((b, c) :: m)
  | _ => true

/-- The canonical form: addresses strictly rise and lie in the address space, and no cell holds what an unlisted address
reads as. Memories of this form that read the same are equal. -/
def Memory.wf (m : Memory) : Bool :=
  Memory.rising m && m.all fun cell => cell.1 < memoryBytes && cell.2 != unlistedByte

/-! Memory, word by word (R48) -/

/-- The byte address of the lower byte of a word (log 4). -/
def byteAddr (a : WordAddr) : Nat := 2 * a.toNat

/-- MemRead (R7): the word at a word address. -/
def Memory.readWord (m : Memory) (a : WordAddr) : Word :=
  wordOf (m.readByte (byteAddr a + 1)) (m.readByte (byteAddr a))

/-- MemWrite (R7): store a word at a word address. -/
def Memory.writeWord (m : Memory) (a : WordAddr) (v : Word) : Memory :=
  (m.writeByte (byteAddr a) (lowByte v)).writeByte (byteAddr a + 1) (highByte v)

/-! The address map (R50) -/

/-- Whether a region holds a word address. -/
def Region.holds (r : Region) (a : WordAddr) : Bool := r.base ≤ a.toNat && a.toNat < r.base + r.size

/-- What backs a word: the first region that holds it, and read-write memory where none does (R50, D26). -/
def kindAt (map : List Region) (a : WordAddr) : MemKind :=
  match map.find? (Region.holds · a) with
  | some r => r.kind
  | none => .readWrite

/-- What backs a word on this state's platform. -/
def State.kindAt (s : State) (a : WordAddr) : MemKind := Machine.kindAt s.params.memMap a

/-- MemRead under MEM_MAP: a word nothing backs stops the model (R50, R132). -/
def State.loadWord (s : State) (a : WordAddr) : Except Fault Word :=
  match s.kindAt a with
  | .absent => .error (.absentWord a)
  | .readWrite | .readOnly => .ok (s.mem.readWord a)

/-- MemWrite under MEM_MAP: a word nothing backs stops the model; a read-only word drops the store or stops it, as the
platform says (R50, R132, U9). -/
def State.storeWord (s : State) (a : WordAddr) (v : Word) : Except Fault State :=
  match s.kindAt a with
  | .absent => .error (.absentWord a)
  | .readWrite => .ok { s with mem := s.mem.writeWord a v }
  | .readOnly =>
    match s.params.romStore with
    | .dropped => .ok s
    | .faults => .error (.readOnlyWord a)

/-! Free values (R7 any1, any16) -/

/-- Count n drawn values. -/
def State.drawn (s : State) (n : Nat) : State := { s with draws := s.draws + n }

/-- The free bit that is k draws ahead, for operands a and b (log 10). -/
def State.freeBit (s : State) (k : Nat) (a b : Word) : Bool := Config.freeBit (s.draws + k) a b

/-! Ports (R45) -/

/-- Take the first word queued for a port, and the queue without it. -/
def takeAnswer (port : Port) : List IoAnswer → Option (Word × List IoAnswer)
  | [] => none
  | a :: rest =>
    if a.port = port then some (a.value, rest)
    else (takeAnswer port rest).map fun (v, left) => (v, a :: left)

/-- IoRead (R7): the word a device holds ready for the port, or a free draw where none is queued (R45, D27; log 11). -/
def State.ioRead (s : State) (port : Port) : Word × State :=
  match takeAnswer port s.ioAnswers with
  | some (v, left) => (v, { s with ioAnswers := left })
  | none => (Config.ioAnswer s.draws port s.ioEvents, s.drawn 1)

/-- IoWrite (R7): one observable event (R45, R116). -/
def State.ioWrite (s : State) (port : Port) (v : Word) : State :=
  { s with ioEvents := s.ioEvents ++ [{ port := port, value := v }] }

/-! The instruction cycle (R80) -/

/-- A 28-bit address: page number ++ 12-bit offset (R41), plain concatenation. -/
def addr28 (page : Word) (offset : Offset) : WordAddr := page ++ offset

/-- Where the next instruction is fetched: RC ++ PC[11:0] (R43). -/
def State.fetchAddress (s : State) : WordAddr := addr28 (s.reg .rc) ((s.reg .pc).extractLsb' 0 12)

/-- The instruction word fetched (R43, R80). -/
def State.fetch (s : State) : Except Fault Word := s.loadWord s.fetchAddress

/-- PC <- PC + 1 modulo 2^16 (R28, R80). -/
def State.advancePc (s : State) : State := s.setReg .pc (s.reg .pc + 1)

/-- PC <- target (R7). -/
def State.jumpTo (s : State) (target : Word) : State := s.setReg .pc target

/-- halted <- true (R7, R118). -/
def State.halt (s : State) : State := { s with halted := true }

/-! Reset and launch, from outside the machine -/

/-- Reset of a machine in any state (R140): PC and RC at the parameters, halted false, every other register a free value,
memory, devices and parameters untouched. An outside event, not a step (log 14). -/
def resetProcessor (s : State) : State :=
  let free := fun k => Config.freeWord (s.draws + k)
  { s with
    regs :=
      { r0 := free 0, r1 := free 1, r2 := free 2, r3 := free 3, r4 := free 4, r5 := free 5, r6 := free 6, r7 := free 7,
        acc := free 8, rs := free 9, rj := free 10, rc := s.params.resetRc, rd := free 11, rx := free 12,
        rb := free 13, pc := s.params.resetPc }
    halted := false
    draws := s.draws + 14 }

/-- Place words in memory from a word address on, as the platform does before it releases reset (R142, R143; log 13). -/
def State.loadImage (s : State) (a : WordAddr) : List Word → State
  | [] => s
  | w :: ws => State.loadImage { s with mem := s.mem.writeWord a w } (a + 1) ws

end Sys2Proof.Machine
end

