-- ==== Sys2Proof/Machine/Operands.lean ====
section
/-! DEFINITION. The operand forms of spec/20_memory.md and spec/30_encoding.md: the effective address of LOAD and STORE, the
byte of the accumulator LI replaces, the shifter of SHIFT. -/

namespace Sys2Proof.Machine

/-- The data address of LOAD and STORE: RD ++ adresa (R42). -/
def State.dataAddress (s : State) (adresa : Offset) : WordAddr := addr28 (s.reg .rd) adresa

/-- A word with the byte lb selects replaced and the other kept (R85, C10). -/
def replaceByte (lb : ByteSel) (v : Word) (podatak : Byte) : Word :=
  match lb with
  | .lower => wordOf (highByte v) podatak
  | .upper => wordOf podatak (lowByte v)

/-- The barrel shifter: a logical shift either way, zeros entering, the bits shifted out lost (R108, D16). -/
def shiftWord (ind : Direction) (v : Word) (np : Nat) : Word :=
  match ind with
  | .left => v <<< np
  | .right => v >>> np

end Sys2Proof.Machine
end

