-- ==== Sys2Proof/Machine/Flags.lean ====
section
/-! DEFINITION. The status bits (spec/10_state.md R14 to R22) and the helpers set_ZNP, set_ZP, set_ZNCOP of
spec/00_scope.md R7. Bits a helper does not name keep their value (R21, R22). -/

namespace Sys2Proof.Machine

/-- The bit of RS that holds a status bit (R14). -/
def Flag.bit : Flag → Nat
  | .z => 0
  | .n => 1
  | .c => 2
  | .o => 3
  | .p => 4

/-- Replace one bit of a word. -/
def writeBit (w : Word) (k : Nat) (b : Bool) : Word :=
  (w &&& ~~~(1#16 <<< k)) ||| (if b then 1#16 <<< k else 0#16)

/-- RS.F (R7). -/
def State.flag (s : State) (f : Flag) : Bool := (s.reg .rs).getLsbD f.bit

/-- RS.F <- b (R7): the other bits of RS stay. -/
def State.setFlag (s : State) (f : Flag) (b : Bool) : State := s.setReg .rs (writeBit (s.reg .rs) f.bit b)

/-- Z: the result is 0x0000 (R15). -/
def isZero (v : Word) : Bool := decide (v = 0)

/-- N: bit 15 of the result (R16). -/
def isNegative (v : Word) : Bool := v.getLsbD 15

/-- P: the exclusive or of the sixteen bits, 1 when the number of 1 bits is odd (R7, R19). -/
def parity (v : Word) : Bool := (List.range 16).foldl (fun p k => p ^^ v.getLsbD k) false

/-- C of ADD: bit 16 of the 17-bit sum (R17, R96). -/
def addCarry (a b : Word) : Bool := decide (65535 < a.toNat + b.toNat)

/-- O of ADD: the operands have one sign and the result the other (R18). -/
def addOverflow (a b r : Word) : Bool := a.getLsbD 15 == b.getLsbD 15 && r.getLsbD 15 != a.getLsbD 15

/-- O of SUB, a minus b: the operands differ in sign and the result's sign is not a's (R18). -/
def subOverflow (a b r : Word) : Bool := a.getLsbD 15 != b.getLsbD 15 && r.getLsbD 15 != a.getLsbD 15

/-- C of SUB under SUB_CARRY, and the state with the draw counted where the parameter is unset (R97, D14, U1). -/
def State.subCarry (s : State) (a b : Word) : Bool × State :=
  match s.params.subCarry with
  | .carryOut => (decide (b.toNat ≤ a.toNat), s)
  | .borrow => (decide (a.toNat < b.toNat), s)
  | .unset => (s.freeBit 0 a b, s.drawn 1)

/-- set_ZP (R7). -/
def State.setZP (s : State) (v : Word) : State :=
  (s.setFlag .z (isZero v)).setFlag .p (parity v)

/-- set_ZNP (R7). -/
def State.setZNP (s : State) (v : Word) : State :=
  ((s.setFlag .z (isZero v)).setFlag .n (isNegative v)).setFlag .p (parity v)

/-- set_ZNCOP (R7). -/
def State.setZNCOP (s : State) (v : Word) (c o : Bool) : State :=
  ((((s.setFlag .z (isZero v)).setFlag .n (isNegative v)).setFlag .c c).setFlag .o o).setFlag .p (parity v)

/-- The status bits of SHIFT: Z, N, P of the result, or all five free, by SHIFT_FLAGS (R108, D17, U4). `v` and `np` are the
operands a free bit may depend on. -/
def State.setShiftFlags (s : State) (r v : Word) (np : Nat) : State :=
  match s.params.shiftFlags with
  | .znp => s.setZNP r
  | .any =>
    let free := fun k => s.freeBit k v (BitVec.ofNat 16 np)
    (((((s.setFlag .z (free 0)).setFlag .n (free 1)).setFlag .c (free 2)).setFlag .o (free 3)).setFlag
      .p (free 4)).drawn 5

end Sys2Proof.Machine
end

