-- ==== Sys2Proof/Machine/Arith.lean ====
section
/-! DEFINITION. The meanings of the three-address instructions (spec/43_alu_three_address.md R95 to R100). Both operands are
read before the destination is written, the status bits are written last (R81): with RS as destination they overwrite their
bits of the result (R23), with PC as destination the result is the next PC (R29). -/

namespace Sys2Proof.Machine

/-- ADD (R96): dst <- fst + snd modulo 2^16; all five status bits. -/
def execAdd (dst fst snd : Reg) (s : State) : StepResult :=
  let a := s.reg fst
  let b := s.reg snd
  let r := a + b
  .next ((s.setReg dst r).setZNCOP r (addCarry a b) (addOverflow a b r))

/-- SUB (R97): dst <- fst - snd modulo 2^16; all five status bits, C by SUB_CARRY (log 7). -/
def execSub (dst fst snd : Reg) (s : State) : StepResult :=
  let a := s.reg fst
  let b := s.reg snd
  let r := a - b
  let (c, t) := s.subCarry a b
  .next ((t.setReg dst r).setZNCOP r c (subOverflow a b r))

/-- What OR, AND and XOR share: the result goes to dst; Z and P only (R98 to R100). -/
def logicResult (dst : Reg) (r : Word) (s : State) : StepResult := .next ((s.setReg dst r).setZP r)

/-- OR (R98). -/
def execOr (dst fst snd : Reg) (s : State) : StepResult := logicResult dst (s.reg fst ||| s.reg snd) s

/-- AND (R99, C3). -/
def execAnd (dst fst snd : Reg) (s : State) : StepResult := logicResult dst (s.reg fst &&& s.reg snd) s

/-- XOR (R100, C3). -/
def execXor (dst fst snd : Reg) (s : State) : StepResult := logicResult dst (s.reg fst ^^^ s.reg snd) s

end Sys2Proof.Machine
end

