-- ==== Sys2Proof/Machine/Control.lean ====
section
/-! DEFINITION. The meanings of NOP (spec/40_instruction_cycle_nop.md R82), JUMP (spec/45_jump.md R110, R111) and HALT
(spec/47_halt.md R118). A meaning acts on the state whose PC the instruction cycle has already incremented (R80). -/

namespace Sys2Proof.Machine

/-- NOP (R82): nothing. Its delay is timing only (R152; log 20). -/
def execNop (s : State) : StepResult := .next s

/-- The condition of JUMP (R110, R111, D6): J is 1, or a flag whose test bit is 1 is 1. -/
def jumpTaken (maska : BitVec 6) (rs : Word) : Bool :=
  maska.getLsbD 5 || (maska.extractLsb' 0 5 &&& rs.extractLsb' 0 5) != 0#5

/-- JUMP (R110): where taken, PC <- RJ, all 16 bits (D7). No status bit is written (D8). -/
def execJump (maska : BitVec 6) (s : State) : StepResult :=
  if jumpTaken maska (s.reg .rs) then .next (s.jumpTo (s.reg .rj)) else .next s

/-- HALT (R118): halted <- true. -/
def execHalt (s : State) : StepResult := .next s.halt

end Sys2Proof.Machine
end

