-- ==== Sys2Proof/Machine/InOut.lean ====
section
/-! DEFINITION. The meanings of IN and OUT (spec/46_io_in_out.md R115, R116). The page registers play no part (R45). -/

namespace Sys2Proof.Machine

/-- IN (R115): ACC <- what the port gives; Z, N, P of it (D18; log 11). -/
def execIn (adresa : Port) (s : State) : StepResult :=
  let (v, t) := s.ioRead adresa
  .next ((t.setReg .acc v).setZNP v)

/-- OUT (R116): send ACC to the port, one event; Z, N, P of it (D18). -/
def execOut (adresa : Port) (s : State) : StepResult :=
  let v := s.reg .acc
  .next ((s.ioWrite adresa v).setZNP v)

end Sys2Proof.Machine
end

