-- ==== Sys2Proof/Machine/Transfer.lean ====
section
/-! DEFINITION. The meanings of LI (spec/41_immediate_li.md R85), LOAD and STORE (spec/42_memory_load_store.md R90, R91). -/

namespace Sys2Proof.Machine

/-- LI (R85): replace one byte of the accumulator; Z, N, P of all 16 bits of it (D12). -/
def execLi (lb : ByteSel) (podatak : Byte) (s : State) : StepResult :=
  let v := replaceByte lb (s.reg .acc) podatak
  .next ((s.setReg .acc v).setZNP v)

/-- LOAD (R90): ACC <- the word at RD ++ adresa; Z, N, P of it. -/
def execLoad (adresa : Offset) (s : State) : StepResult :=
  orFault (s.loadWord (s.dataAddress adresa)) fun v => .next ((s.setReg .acc v).setZNP v)

/-- STORE (R91): the word at RD ++ adresa <- ACC; Z, N, P of it (D12). -/
def execStore (adresa : Offset) (s : State) : StepResult :=
  let v := s.reg .acc
  orFault (s.storeWord (s.dataAddress adresa) v) fun t => .next (t.setZNP v)

end Sys2Proof.Machine
end

