-- ==== Sys2Proof/Machine/TwoAddress.lean ====
section
/-! DEFINITION. The meanings of MOV, NOT and SHIFT (spec/44_two_address_mov_not_shift.md R105 to R108). -/

namespace Sys2Proof.Machine

/-- MOV (R105): dst <- src; Z, N, P of the value moved. MVAC and MVR are MOV (R106). -/
def execMov (dst src : Reg) (s : State) : StepResult :=
  let v := s.reg src
  .next ((s.setReg dst v).setZNP v)

/-- NOT (R107): dst <- the complement of src; Z, N, P of it; C and O free bits (D15, U2; log 9). -/
def execNot (dst src : Reg) (s : State) : StepResult :=
  let v := s.reg src
  let r := ~~~v
  .next (((s.setReg dst r).setZNCOP r (s.freeBit 0 v 0) (s.freeBit 1 v 0)).drawn 2)

/-- SHIFT (R108): ACC <- src shifted by np; the status bits by SHIFT_FLAGS (log 8). -/
def execShift (ind : Direction) (src : Reg) (np : Nat) (s : State) : StepResult :=
  let v := s.reg src
  let r := shiftWord ind v np
  .next ((s.setReg .acc r).setShiftFlags r v np)

end Sys2Proof.Machine
end

