-- ==== Sys2Proof/Machine/Dispatch.lean ====
section
/-! DEFINITION. execute(I) of spec/40_instruction_cycle_nop.md R80: one arm per instruction of spec/30_encoding.md R70. -/

namespace Sys2Proof.Machine

def exec (i : Instr) (s : State) : Host.Outcome State Fault Refusal :=
  match i with
  | .nop => Sys2Proof.Machine.execNop s
  | .li lb podatak => Sys2Proof.Machine.execLi lb podatak s
  | .load adresa => Sys2Proof.Machine.execLoad adresa s
  | .store adresa => Sys2Proof.Machine.execStore adresa s
  | .add dst fst snd => Sys2Proof.Machine.execAdd dst fst snd s
  | .sub dst fst snd => Sys2Proof.Machine.execSub dst fst snd s
  | .mov dst src => Sys2Proof.Machine.execMov dst src s
  | .notReg dst src => Sys2Proof.Machine.execNot dst src s
  | .orReg dst fst snd => Sys2Proof.Machine.execOr dst fst snd s
  | .andReg dst fst snd => Sys2Proof.Machine.execAnd dst fst snd s
  | .xorReg dst fst snd => Sys2Proof.Machine.execXor dst fst snd s
  | .shift ind src np => Sys2Proof.Machine.execShift ind src np s
  | .jump maska => Sys2Proof.Machine.execJump maska s
  | .inPort adresa => Sys2Proof.Machine.execIn adresa s
  | .outPort adresa => Sys2Proof.Machine.execOut adresa s
  | .halt => Sys2Proof.Machine.execHalt s

end Sys2Proof.Machine
end

