-- ==== Sys2Proof/Machine/Step.lean ====
section
/-! DEFINITION. One step of the processor (spec/40_instruction_cycle_nop.md R80). -/

namespace Sys2Proof.Machine

/-- R80: where halted, nothing changes (R31, R118; log 12); else fetch at RC ++ PC[11:0], increment PC, execute. -/
def step (s : State) : Host.Outcome State Fault Refusal :=
  if s.halted then .next s
  else orFault s.fetch fun w => exec (decodeWord w) s.advancePc

/-- The state with an instruction word of `nbits` bits where step fetches next, and not halted, so that the next step runs it
(log 13). A word MEM_MAP calls absent cannot be fetched even so (R50). -/
def State.withFetchWord (s : State) (nbits w : Nat) : State :=
  { s with halted := false, mem := s.mem.writeWord s.fetchAddress (BitVec.ofNat 16 (w % 2 ^ nbits)) }

end Sys2Proof.Machine
end

