-- ==== Sys2Proof/Safety.lean ====
section
/-! DEFINITION. The terms statements are made in: what a run leaves to see (spec/47_halt.md R119), the tables of
spec/10_state.md R20 and R36 as functions of an instruction, and relations between a state before and a state after. -/

namespace Sys2Proof.Machine

/-- The final state of a run: the register file, the memory and the sequence of OUT events (R119). -/
def State.observable (s : State) : RegFile × Memory × List IoEvent := (s.regs, s.mem, s.ioEvents)

/-- The invariant of every step: memory keeps its canonical form. -/
def State.Inv (s : State) : Prop := s.mem.wf = true

/-- A platform on which no access stops the model: MEM_MAP backs every word, and a STORE to a read-only word is dropped. The
default MEM_MAP of R50 is one. -/
def State.fullyBacked (s : State) : Prop :=
  ∀ a : WordAddr, s.kindAt a ≠ .absent ∧ (s.kindAt a = .readOnly → s.params.romStore = .dropped)

/-- R20: the status bits an instruction writes, SHIFT's under the decided SHIFT_FLAGS = ZNP. -/
def flagsWritten : Instr → List Flag
  | .nop | .jump _ | .halt => []
  | .li _ _ | .load _ | .store _ | .mov _ _ | .shift _ _ _ | .inPort _ | .outPort _ => [.z, .n, .p]
  | .add _ _ _ | .sub _ _ _ | .notReg _ _ => [.z, .n, .c, .o, .p]
  | .orReg _ _ _ | .andReg _ _ _ | .xorReg _ _ _ => [.z, .p]

/-- R36: the registers an instruction writes as its destination, implicit or named; the status register's own status bits and
the PC of a taken JUMP or of the fetch are not among them. -/
def destinations : Instr → List Reg
  | .nop | .jump _ | .halt | .store _ | .outPort _ => []
  | .li _ _ | .load _ | .inPort _ | .shift _ _ _ => [.acc]
  | .add d _ _ | .sub d _ _ | .orReg d _ _ | .andReg d _ _ | .xorReg d _ _ => [d]
  | .mov d _ | .notReg d _ => [d]

/-- Every byte of memory reads as before. -/
def SameMemory (s t : State) : Prop := ∀ a, t.mem.readByte a = s.mem.readByte a

/-- Every byte of memory outside the two bytes of word `w` reads as before. -/
def SameMemoryBut (w : WordAddr) (s t : State) : Prop :=
  ∀ a, a ≠ byteAddr w → a ≠ byteAddr w + 1 → t.mem.readByte a = s.mem.readByte a

/-- Every register but those listed reads as before. -/
def SameRegsBut (rs : List Reg) (s t : State) : Prop := ∀ r, r ∉ rs → t.reg r = s.reg r

/-- What stands outside the registers, memory and the ports is as before: the halt state and the parameters. -/
def SameControl (s t : State) : Prop := t.halted = s.halted ∧ t.params = s.params

/-- Nothing was sent to or taken from a port. -/
def SamePorts (s t : State) : Prop := t.ioEvents = s.ioEvents ∧ t.ioAnswers = s.ioAnswers

/-- Everything but registers is as before. -/
def SameOutside (s t : State) : Prop := SameMemory s t ∧ SamePorts s t ∧ SameControl s t

/-- What a status update leaves in RS, given what RS held just before it: each of the five bits of R14 is the one given or,
with none given, as before; bits 15 to 5 are as before (R21, R22). -/
def StatusAfter (before after : Word) (z n c o p : Option Bool) : Prop :=
  after.getLsbD 0 = z.getD (before.getLsbD 0) ∧ after.getLsbD 1 = n.getD (before.getLsbD 1) ∧
  after.getLsbD 2 = c.getD (before.getLsbD 2) ∧ after.getLsbD 3 = o.getD (before.getLsbD 3) ∧
  after.getLsbD 4 = p.getD (before.getLsbD 4) ∧ ∀ k, 5 ≤ k → after.getLsbD k = before.getLsbD k

/-- What RS holds just before the status update of an instruction that writes `v` to `dst`: the result where RS is the
destination, else what it held (R23). -/
def statusBase (s : State) (dst : Reg) (v : Word) : Word := if dst = .rs then v else s.reg .rs

/-- The register side of an instruction that writes `v` to `dst`: dst holds v (RS, whose status bits are then written, is
spoken of by `StatusAfter`), and every register but dst and RS is as before. -/
def WritesReg (s t : State) (dst : Reg) (v : Word) : Prop :=
  (dst ≠ .rs → t.reg dst = v) ∧ SameRegsBut [dst, .rs] s t

/-- The number of 1 bits of a word (R19). -/
def onesIn (v : Word) : Nat := (List.range 16).countP fun k => v.getLsbD k

/-- The sign of a word: its two's complement value is negative (R6, R16). -/
def negative (v : Word) : Bool := decide (v.toInt < 0)

/-- The number of 1 bits is odd (R19). -/
def oddOnes (v : Word) : Bool := decide (onesIn v % 2 = 1)

/-- The status update of a result `v` that writes Z, N and P and keeps the rest of RS (R15, R16, R19, R21). -/
def ZnpOf (before after v : Word) : Prop :=
  StatusAfter before after (some (decide (v = 0))) (some (negative v)) none none (some (oddOnes v))

/-- The status update of a result `v` that writes Z and P and keeps the rest of RS (R15, R19, R21). -/
def ZpOf (before after v : Word) : Prop :=
  StatusAfter before after (some (decide (v = 0))) none none none (some (oddOnes v))

/-- The status update of a result `v` that writes all five status bits, C and O as given (R14, R22). -/
def ZncopOf (before after v : Word) (c o : Bool) : Prop :=
  StatusAfter before after (some (decide (v = 0))) (some (negative v)) (some c) (some o) (some (oddOnes v))

/-- A signed result that does not fit in 16 bits (R6, R18). -/
def outOfRange (x : Int) : Bool := decide (x < -32768 ∨ 32767 < x)

end Sys2Proof.Machine
end

