-- ==== Sys2Proof/Certificates/Slice0/Obligations.lean ====
section
/-! DEFINITION. What is claimed of the model, in the terms of Sys2Proof/Safety.lean. A claim about `exec` speaks of the state after
the instruction cycle has incremented PC (R80). D<n> is a decision the spec marks as its own (spec/92_eei_decisions.md),
"log <n>" an entry of notes/assumptions/: a statement that rests on one says so. The decisions and their log entries: D1 log 1, 2
and 14; D2, D3, D7, D25, D29, D30 log 16; D4, D5, D6, D20, D33 log 17; D8 to D12, D18, D34 log 15; D13 log 18; D14 log 7; D15
log 9; D16, D17 log 8; D19 log 12; D22 to D24 log 19; D26 log 5; D27 log 11; D28 log 4; D32 log 20. -/

open Sys2Proof Sys2Proof.Machine

/-! Encoding -/

/-- R10: sixteen registers of 16 bits, any of them selected by a 4-bit number, none hardwired, none sharing storage. -/
def Obligations.RegisterFileReadAfterWrite : Prop :=
  (∀ b : BitVec 4, (Reg.ofBits b).bits = b) ∧ (∀ r : Reg, Reg.ofBits r.bits = r) ∧
  ∀ (s : State) (d r : Reg) (v : Word), (s.setReg d v).reg r = if r = d then v else s.reg r

/-- R61: I[15:12] alone selects the instruction. -/
def Obligations.OperationCodeAloneSelects : Prop :=
  (∀ w : Word, (decodeWord w).opcode = w.extractLsb' 12 4) ∧
  ∀ w w' : Word, (decodeWord w).opcode = (decodeWord w').opcode ↔ w.extractLsb' 12 4 = w'.extractLsb' 12 4

/-- The 12-bit field of format M (R63): the address of LOAD and STORE and the port of IN and OUT is I[11:0]. -/
def Obligations.DirectAddressField : Prop :=
  ∀ w : Word,
    (w.extractLsb' 12 4 = 2 → decodeWord w = .load (w.extractLsb' 0 12)) ∧
    (w.extractLsb' 12 4 = 3 → decodeWord w = .store (w.extractLsb' 0 12)) ∧
    (w.extractLsb' 12 4 = 13 → decodeWord w = .inPort (w.extractLsb' 0 12)) ∧
    (w.extractLsb' 12 4 = 14 → decodeWord w = .outPort (w.extractLsb' 0 12))

/-- R64: in format R3 the destination is I[11:8], the second operand I[7:4], the first operand I[3:0]; the order of the operands
matters only for SUB, which computes first minus second. -/
def Obligations.ThreeAddressFields : Prop :=
  (∀ w : Word,
    let dst := Reg.ofBits (w.extractLsb' 8 4)
    let opB := Reg.ofBits (w.extractLsb' 4 4)
    let opA := Reg.ofBits (w.extractLsb' 0 4)
    (w.extractLsb' 12 4 = 4 → decodeWord w = .add dst opA opB) ∧
    (w.extractLsb' 12 4 = 5 → decodeWord w = .sub dst opA opB) ∧
    (w.extractLsb' 12 4 = 8 → decodeWord w = .orReg dst opA opB) ∧
    (w.extractLsb' 12 4 = 9 → decodeWord w = .andReg dst opA opB) ∧
    (w.extractLsb' 12 4 = 10 → decodeWord w = .xorReg dst opA opB)) ∧
  ∀ (d a b : Reg) (s : State),
    exec (.add d a b) s = exec (.add d b a) s ∧ exec (.orReg d a b) s = exec (.orReg d b a) s ∧
    exec (.andReg d a b) s = exec (.andReg d b a) s ∧ exec (.xorReg d a b) s = exec (.xorReg d b a) s ∧
    ∃ t, exec (.sub d a b) s = .next t ∧ (d ≠ .rs → t.reg d = s.reg a - s.reg b)

/-- Format R2 (R65): the destination is I[11:8] and the source I[7:4]; I[3:0] does not matter. That the source is I[7:4] is the
resolution C6 (log 25, DEDUCED), and that I[3:0] is ignored the spec's own decision D20 of R71 (log 17, DEDUCED). -/
def Obligations.TwoAddressFields : Prop :=
  ∀ w : Word,
    (w.extractLsb' 12 4 = 6 →
      decodeWord w = .mov (.ofBits (w.extractLsb' 8 4)) (.ofBits (w.extractLsb' 4 4))) ∧
    (w.extractLsb' 12 4 = 7 →
      decodeWord w = .notReg (.ofBits (w.extractLsb' 8 4)) (.ofBits (w.extractLsb' 4 4)))

/-- R67: podatak is I[7:0] and lb I[8]; I8 = 0 writes the operand to the lower byte of the accumulator, I8 = 1 to the upper
byte; I[11:9] are unused. -/
def Obligations.ImmediateFields : Prop :=
  ∀ w : Word, w.extractLsb' 12 4 = 1 →
    decodeWord w = .li (if w.getLsbD 8 then .upper else .lower) (w.extractLsb' 0 8) ∧
    ∀ s : State, ∃ t, exec (decodeWord w) s = .next t ∧
      (w.getLsbD 8 = false → (t.reg .acc).extractLsb' 0 8 = w.extractLsb' 0 8) ∧
      (w.getLsbD 8 = true → (t.reg .acc).extractLsb' 8 8 = w.extractLsb' 0 8)

/-- The fields of SHIFT (R66, derived by the spec from two quoted positions), of JUMP (R68; that the mask is I[5:0] is D5) and
the two formats without operand (R69; that their other bits do not matter is D20). -/
def Obligations.ShiftJumpAndEmptyFields : Prop :=
  ∀ w : Word,
    (w.extractLsb' 12 4 = 11 →
      decodeWord w = .shift (if w.getLsbD 8 then .right else .left) (.ofBits (w.extractLsb' 4 4))
        (w.extractLsb' 0 4).toNat) ∧
    (w.extractLsb' 12 4 = 12 → decodeWord w = .jump (w.extractLsb' 0 6)) ∧
    (w.extractLsb' 12 4 = 0 → decodeWord w = .nop) ∧
    (w.extractLsb' 12 4 = 15 → decodeWord w = .halt)

/-- R71: two words that differ only in bits their format does not use are the same instruction (for the formats whose figures
are lost, D20). Each pair is an operation code and the bits its format uses. -/
def Obligations.IgnoredBitsDoNotMatter : Prop :=
  ∀ p ∈ ([(0, 0xF000), (1, 0xF1FF), (6, 0xFFF0), (7, 0xFFF0), (11, 0xF1FF), (12, 0xF03F), (15, 0xF000)] :
      List (BitVec 4 × Word)),
    ∀ w w' : Word, w.extractLsb' 12 4 = p.1 → w &&& p.2 = w' &&& p.2 → decodeWord w = decodeWord w'

/-- Decode and encode agree on every well-formed instruction, as bytes (the byte order is the model's, log 4), whatever bytes
follow (R60, R70 to R74). -/
def Obligations.DecodeEncodeRoundTrip : Prop :=
  ∀ i : Instr, i.WellFormed → ∀ rest : List Byte, decode (encodeBytes i ++ rest) = .ok (i, rest)

/-- Every word decodes to a well-formed instruction (R72), whose canonical word is that word with its ignored bits 0
(R71, R74, D20). -/
def Obligations.EncodeDecodeCanonical : Prop :=
  ∀ w : Word, (decodeWord w).WellFormed ∧ encode (decodeWord w) = w &&& careMask (w.extractLsb' 12 4)

/-- Words the spec writes out decode to the instructions it names (spec/95_test_vectors.md V1 to V9): a sanity statement. -/
def Obligations.SampleWordsDecode : Prop :=
  decodeWord 0x4321 = .add .r3 .r1 .r2 ∧ decodeWord 0x5312 = .sub .r3 .r2 .r1 ∧ decodeWord 0x618F = .mov .r1 .acc ∧
  decodeWord 0xB138 = .shift .right .r3 8 ∧ decodeWord 0x1F12 = .li .upper 0x12 ∧ decodeWord 0xCFC1 = .jump 0b000001 ∧
  decodeWord 0x3102 = .store 0x102 ∧ decodeWord 0xE011 = .outPort 0x011

/-- MVAC Ri is the word 0110 1000 iiii xxxx, MVR Ri the word 0110 iiii 1000 xxxx, both MOV (R106). That they are MOV words is the
resolution C4 (log 24, DEDUCED), the place of the source C6 (log 25, DEDUCED), and that xxxx is ignored the spec's own
decision D20 of R71 (log 17, DEDUCED). -/
def Obligations.PseudoInstructionsAreMov : Prop :=
  ∀ i x : BitVec 4,
    decodeWord (0x6#4 ++ (0x8#4 ++ (i ++ x))) = .mvac (.ofBits i) ∧ Instr.mvac (.ofBits i) = .mov .acc (.ofBits i) ∧
    decodeWord (0x6#4 ++ (i ++ (0x8#4 ++ x))) = .mvr (.ofBits i) ∧ Instr.mvr (.ofBits i) = .mov (.ofBits i) .acc

/-! The instruction cycle -/

/-- R80: a running machine runs the instruction whose bytes stand at RC ++ PC[11:0], after PC is incremented; the increment
changes PC alone. The fetch address is D2, the width of the increment D3; which byte of a word lies lower is log 4. -/
def Obligations.StepRunsDecodedInstruction : Prop :=
  ∀ (s : State) (a : WordAddr) (i : Instr), s.halted = false →
    a.toNat = (s.reg .rc).toNat * 4096 + (s.reg .pc).toNat % 4096 → s.kindAt a ≠ .absent →
    decode [s.mem.readByte (byteAddr a), s.mem.readByte (byteAddr a + 1)] = .ok (i, []) → i.WellFormed →
    step s = exec i s.advancePc ∧ s.advancePc.reg .pc = s.reg .pc + 1 ∧ SameRegsBut [.pc] s s.advancePc ∧
      SameOutside s s.advancePc

/-- Halted, the machine executes nothing and changes nothing (R31, R118; D19, and as an idle step log 12). -/
def Obligations.HaltedMachineStays : Prop := ∀ s : State, s.halted = true → step s = .next s

/-- A fetch from a word MEM_MAP does not back stops the model (R50, U9; log 5). -/
def Obligations.FetchFromAbsentWordStops : Prop :=
  ∀ s : State, s.halted = false → s.kindAt s.fetchAddress = .absent → step s = .fault (.absentWord s.fetchAddress)

/-- A word placed at the fetch address is what the next step runs (the model's launch, log 13). -/
def Obligations.PlacedWordRunsNext : Prop :=
  ∀ (s : State) (w : Word), s.kindAt s.fetchAddress ≠ .absent →
    step (s.withFetchWord 16 w.toNat) = exec (decodeWord w) (s.withFetchWord 16 w.toNat).advancePc

/-- PC wraps inside the page: the fetch after an increment is from RC ++ (PC + 1)[11:0], RC unchanged (R28, R151; D2, D3). -/
def Obligations.NextFetchWrapsInPage : Prop :=
  ∀ s : State, s.advancePc.fetchAddress.toNat = (s.reg .rc).toNat * 4096 + ((s.reg .pc).toNat + 1) % 4096

/-- R41: a memory address is the 16-bit page number and the 12-bit address in the page, joined: no carry from the one to the
other, and 28 bits. -/
def Obligations.AddressIsConcatenation : Prop :=
  ∀ (page : Word) (offset : Offset), (addr28 page offset).toNat = page.toNat * 4096 + offset.toNat ∧
    (addr28 page offset).extractLsb' 12 16 = page ∧ (addr28 page offset).extractLsb' 0 12 = offset

/-! What each instruction does, and what it leaves alone -/

/-- NOP (R82) changes nothing (PC apart, which the instruction cycle has incremented); its delay is timing (D32, log 20). -/
def Obligations.NopChangesNothing : Prop := ∀ s : State, exec .nop s = .next s

/-- LI (R85) replaces one byte of the accumulator and keeps the other; Z, N, P describe all 16 bits of it (D12); nothing else
changes (C and O: D9). -/
def Obligations.LiReplacesOneByte : Prop :=
  ∀ (lb : ByteSel) (d : Byte) (s : State), ∃ t, exec (.li lb d) s = .next t ∧
    (t.reg .acc).extractLsb' 0 8 = (if lb = .lower then d else (s.reg .acc).extractLsb' 0 8) ∧
    (t.reg .acc).extractLsb' 8 8 = (if lb = .upper then d else (s.reg .acc).extractLsb' 8 8) ∧
    ZnpOf (s.reg .rs) (t.reg .rs) (t.reg .acc) ∧ SameRegsBut [.acc, .rs] s t ∧ SameOutside s t

/-- LOAD (R90) fills the accumulator with the word at RD ++ adresa (that the page is RD is D4), Z, N, P of it, where MEM_MAP
backs that word; nothing else changes. -/
def Obligations.LoadFillsAccumulator : Prop :=
  ∀ (adresa : Offset) (s : State) (a : WordAddr), a.toNat = (s.reg .rd).toNat * 4096 + adresa.toNat →
    s.kindAt a ≠ .absent → ∃ t, exec (.load adresa) s = .next t ∧
      (t.reg .acc).extractLsb' 0 8 = s.mem.readByte (byteAddr a) ∧
      (t.reg .acc).extractLsb' 8 8 = s.mem.readByte (byteAddr a + 1) ∧
      ZnpOf (s.reg .rs) (t.reg .rs) (t.reg .acc) ∧ SameRegsBut [.acc, .rs] s t ∧ SameOutside s t

/-- STORE (R91) writes the accumulator to the word at RD ++ adresa (D4) where that is read-write memory, and every byte outside
that word reads as before (R49); Z, N, P of the value stored (D12); no register but RS changes. -/
def Obligations.StoreWritesOneWord : Prop :=
  ∀ (adresa : Offset) (s : State), s.kindAt (s.dataAddress adresa) = .readWrite →
    (s.dataAddress adresa).toNat = (s.reg .rd).toNat * 4096 + adresa.toNat ∧
    ∃ t, exec (.store adresa) s = .next t ∧
      t.mem.readByte (byteAddr (s.dataAddress adresa)) = (s.reg .acc).extractLsb' 0 8 ∧
      t.mem.readByte (byteAddr (s.dataAddress adresa) + 1) = (s.reg .acc).extractLsb' 8 8 ∧
      SameMemoryBut (s.dataAddress adresa) s t ∧ ZnpOf (s.reg .rs) (t.reg .rs) (s.reg .acc) ∧
      SameRegsBut [.rs] s t ∧ SamePorts s t ∧ SameControl s t

/-- STORE to a read-only word on a platform that drops it (U9; log 6): no byte changes, the status bits are written (R91, D12). -/
def Obligations.StoreToReadOnlyIsDropped : Prop :=
  ∀ (adresa : Offset) (s : State), s.kindAt (s.dataAddress adresa) = .readOnly → s.params.romStore = .dropped →
    ∃ t, exec (.store adresa) s = .next t ∧ ZnpOf (s.reg .rs) (t.reg .rs) (s.reg .acc) ∧ SameRegsBut [.rs] s t ∧
      SameOutside s t

/-- LOAD and STORE stop at a word MEM_MAP does not back, STORE at a read-only word where the platform faults (R50, R132, U9;
log 5, log 6). -/
def Obligations.AccessesThatStop : Prop :=
  ∀ (adresa : Offset) (s : State),
    (s.kindAt (s.dataAddress adresa) = .absent →
      exec (.load adresa) s = .fault (.absentWord (s.dataAddress adresa)) ∧
      exec (.store adresa) s = .fault (.absentWord (s.dataAddress adresa))) ∧
    (s.kindAt (s.dataAddress adresa) = .readOnly → s.params.romStore = .faults →
      exec (.store adresa) s = .fault (.readOnlyWord (s.dataAddress adresa)))

/-- ADD (R96): the sum modulo 2^16 to the destination, C the unsigned and O the signed overflow (R17, R18; two's complement is
D13), Z, N, P of the sum; nothing else changes. With RS as destination the status bits overwrite theirs of the sum (R23, D11).
Bits 15..5 of RS are kept by D10 and sources are read first by D34 (with D11 log 15, DEDUCED); PC is an operand like another by
D30 (log 16, DEDUCED); D13 is log 18 (PRESUMED). -/
def Obligations.AddComputesSum : Prop :=
  ∀ (d f g : Reg) (s : State), ∃ t v, exec (.add d f g) s = .next t ∧
    v.toNat = ((s.reg f).toNat + (s.reg g).toNat) % 65536 ∧ WritesReg s t d v ∧
    ZncopOf (statusBase s d v) (t.reg .rs) v (decide (65535 < (s.reg f).toNat + (s.reg g).toNat))
      (outOfRange ((s.reg f).toInt + (s.reg g).toInt)) ∧ SameOutside s t

/-- SUB (R97): first minus second modulo 2^16; O the signed overflow (R18, D13), Z, N, P of the difference; C by SUB_CARRY,
and some bit where the parameter is unset (D14, U1; log 7). RS as destination: R23, D11. Bits 15..5 of RS are kept by D10 and
sources are read first by D34 (with D11 log 15, DEDUCED); PC is an operand like another by D30 (log 16, DEDUCED); D13 is log 18
(PRESUMED). -/
def Obligations.SubComputesDifference : Prop :=
  ∀ (d f g : Reg) (s : State), ∃ t v c, exec (.sub d f g) s = .next t ∧
    v.toNat = ((s.reg f).toNat + 65536 - (s.reg g).toNat) % 65536 ∧ WritesReg s t d v ∧
    (s.params.subCarry = .carryOut → c = decide ((s.reg g).toNat ≤ (s.reg f).toNat)) ∧
    (s.params.subCarry = .borrow → c = decide ((s.reg f).toNat < (s.reg g).toNat)) ∧
    ZncopOf (statusBase s d v) (t.reg .rs) v c (outOfRange ((s.reg f).toInt - (s.reg g).toInt)) ∧ SameOutside s t

/-- OR, AND and XOR (R98 to R100) write the bitwise result to the destination, then Z and P of it. Their words are 1000, 1001,
1010 tttt ssss ffff; that AND and XOR compute what their names say is the resolution C3 (log 25, DEDUCED). That the other
bits of RS are kept is D9 for N, C and O and D10 for bits 15..5, and that RS as destination gets the result first, so that
those bits are then the result's, is D11 (log 15, DEDUCED). Sources are read first by D34 (log 15, DEDUCED), and PC is an
operand like another by D30 (log 16, DEDUCED). Nothing else changes. -/
def Obligations.LogicComputesBitwise : Prop :=
  (∀ w : Word,
    let t := Reg.ofBits (w.extractLsb' 8 4)
    let s := Reg.ofBits (w.extractLsb' 4 4)
    let f := Reg.ofBits (w.extractLsb' 0 4)
    (w.extractLsb' 12 4 = 8 → decodeWord w = .orReg t f s) ∧ (w.extractLsb' 12 4 = 9 → decodeWord w = .andReg t f s) ∧
    (w.extractLsb' 12 4 = 10 → decodeWord w = .xorReg t f s)) ∧
  ∀ p ∈ ([(Instr.orReg, or), (Instr.andReg, and), (Instr.xorReg, xor)] :
      List ((Reg → Reg → Reg → Instr) × (Bool → Bool → Bool))),
    ∀ (d f g : Reg) (s : State), ∃ t v, exec (p.1 d f g) s = .next t ∧
      (∀ k, k < 16 → v.getLsbD k = p.2 ((s.reg f).getLsbD k) ((s.reg g).getLsbD k)) ∧ WritesReg s t d v ∧
      ZpOf (statusBase s d v) (t.reg .rs) v ∧ SameOutside s t

/-- MOV (R105), the word 0110 tttt ssss xxxx, copies the source to the destination, then writes Z, N, P of the value; nothing
else changes. That it is one instruction with a general destination is C4 (log 24), that the source is I[7:4] C6 (log 25),
that I[3:0] is ignored D20 (log 17), that C and O are not written C16 (log 25); that C, O and bits 15..5 of RS are kept is D9
and D10, that RS as destination gets the value first D11, that Z, N, P are of all of the value moved D12 (log 15), and that
PC is an operand like another D30 (log 16). These log entries are DEDUCED. -/
def Obligations.MovCopies : Prop :=
  (∀ w : Word, w.extractLsb' 12 4 = 6 →
    decodeWord w = .mov (.ofBits (w.extractLsb' 8 4)) (.ofBits (w.extractLsb' 4 4))) ∧
  ∀ (d r : Reg) (s : State), ∃ t, exec (.mov d r) s = .next t ∧ WritesReg s t d (s.reg r) ∧
    ZnpOf (statusBase s d (s.reg r)) (t.reg .rs) (s.reg r) ∧ SameOutside s t

/-- NOT (R107): the bitwise complement; Z, N, P of it, so P is that of the source; C and O are some bits, not fixed (D15, U2;
log 9). RS as destination: R23, D11; bits 15..5 of RS kept: D10 (both log 15, DEDUCED); PC as operand: D30 (log 16, DEDUCED). -/
def Obligations.NotComplements : Prop :=
  ∀ (d r : Reg) (s : State), ∃ t v c o, exec (.notReg d r) s = .next t ∧ v.toNat = 65535 - (s.reg r).toNat ∧
    oddOnes v = oddOnes (s.reg r) ∧ WritesReg s t d v ∧ ZncopOf (statusBase s d v) (t.reg .rs) v c o ∧ SameOutside s t

/-- SHIFT (R108): a logical shift to the accumulator, zeros entering (D16); Z, N, P of it with C and O kept under
SHIFT_FLAGS = ZNP (D17), and under `any` no status bit is fixed (U4; log 8); bits 15..5 of RS and all else are kept. -/
def Obligations.ShiftMovesBits : Prop :=
  ∀ (ind : Direction) (r : Reg) (np : Nat) (s : State), ∃ t v, exec (.shift ind r np) s = .next t ∧
    v.toNat = (match ind with
      | .left => (s.reg r).toNat * 2 ^ np % 65536
      | .right => (s.reg r).toNat / 2 ^ np) ∧
    t.reg .acc = v ∧ SameRegsBut [.acc, .rs] s t ∧ SameOutside s t ∧
    (s.params.shiftFlags = .znp → ZnpOf (s.reg .rs) (t.reg .rs) v) ∧
    ∀ k, 5 ≤ k → (t.reg .rs).getLsbD k = (s.reg .rs).getLsbD k

/-- JUMP (R110): taken where J is 1 or a selected flag is 1 (mask position D5, masks not listed by the source D6); then PC
receives all 16 bits of RJ (D7); no status bit and nothing else changes (D8). -/
def Obligations.JumpGoesToRj : Prop :=
  ∀ (m : BitVec 6) (s : State), ∃ t, exec (.jump m) s = .next t ∧
    ((m.getLsbD 5 = true ∨ ∃ f : Flag, m.getLsbD f.bit = true ∧ s.flag f = true) → t.reg .pc = s.reg .rj) ∧
    (m.getLsbD 5 = false → (∀ f : Flag, m.getLsbD f.bit = true → s.flag f = false) → t.reg .pc = s.reg .pc) ∧
    SameRegsBut [.pc] s t ∧ SameOutside s t

/-- IN (R115) fills the accumulator from the port and writes Z, N, P of the word (D18): the first word a device holds ready for
that port, or some word where none is ready (D27; log 11). Nothing else changes. -/
def Obligations.InFillsAccumulator : Prop :=
  ∀ (port : Port) (s : State),
    (∀ before v after, s.ioAnswers = before ++ ⟨port, v⟩ :: after → (∀ x ∈ before, x.port ≠ port) →
      ∃ t, exec (.inPort port) s = .next t ∧ t.reg .acc = v ∧ t.ioAnswers = before ++ after ∧
        ZnpOf (s.reg .rs) (t.reg .rs) v ∧ SameRegsBut [.acc, .rs] s t ∧ SameMemory s t ∧
        t.ioEvents = s.ioEvents ∧ SameControl s t) ∧
    ((∀ x ∈ s.ioAnswers, x.port ≠ port) →
      ∃ t, exec (.inPort port) s = .next t ∧ ZnpOf (s.reg .rs) (t.reg .rs) (t.reg .acc) ∧
        SameRegsBut [.acc, .rs] s t ∧ SameOutside s t)

/-- OUT (R116) sends the accumulator to the port as one event, after every earlier one, and writes Z, N, P of it (D18). Nothing
else changes. -/
def Obligations.OutSendsOneEvent : Prop :=
  ∀ (port : Port) (s : State), ∃ t, exec (.outPort port) s = .next t ∧
    t.ioEvents = s.ioEvents ++ [⟨port, s.reg .acc⟩] ∧ t.ioAnswers = s.ioAnswers ∧
    ZnpOf (s.reg .rs) (t.reg .rs) (s.reg .acc) ∧ SameRegsBut [.rs] s t ∧ SameMemory s t ∧ SameControl s t

/-- HALT (R118): halted becomes true, nothing else changes, and no later step changes anything (D19; log 12). -/
def Obligations.HaltStopsForGood : Prop :=
  ∀ s : State, ∃ t, exec .halt s = .next t ∧ t.halted = true ∧ SameRegsBut [] s t ∧ SameMemory s t ∧ SamePorts s t ∧
    t.params = s.params ∧ ∀ n, Sys2Proof.core.run n t = .next t

/-! The whole machine -/

/-- Every step keeps the canonical form of memory (the model's own form, log 3 and log 4), from every state that has it. -/
def Obligations.StepKeepsMemoryForm : Prop := ∀ s t : State, s.Inv → step s = .next t → t.Inv

/-- Memory has its canonical form at reset (nothing is listed, log 3). -/
def Obligations.ResetHasMemoryForm : Prop := State.reset.Inv

/-- Memories of the canonical form that read the same are equal (the model's own form, log 3 and log 4). -/
def Obligations.CanonicalMemoriesAreEqual : Prop :=
  ∀ m m' : Memory, m.wf = true → m'.wf = true → (∀ a, m.readByte a = m'.readByte a) → m = m'

/-- No exception exists (R120, D22): where MEM_MAP backs every word, every step from every state ends in a next state, on a
platform that is still one such. A STORE to a read-only word is dropped there (log 6, DESIGN CHOICE), and a halted state
steps to itself (log 12, DESIGN CHOICE). -/
def Obligations.EveryStepCompletes : Prop :=
  ∀ s : State, s.fullyBacked → ∃ t, step s = .next t ∧ t.fullyBacked

/-- No run of any length ever stops by a fault or a refusal where MEM_MAP backs every word (R72, R120, R123; D22), from every
state. A STORE to a read-only word is dropped there (log 6, DESIGN CHOICE), and a run that has halted goes on with idle steps
(log 12, DESIGN CHOICE). -/
def Obligations.NoRunEverFaults : Prop :=
  ∀ (n : Nat) (s : State), s.fullyBacked → ∃ t, Sys2Proof.core.run n s = .next t

/-- R36: in one step of a running machine, a register that is not the PC, not RS (whose status bits have their own statement) and not
the destination of the instruction fetched does not change. That no instruction
writes RX or RB of itself is D33 (log 17, DEDUCED). -/
def Obligations.OnlyDestinationsChange : Prop :=
  ∀ s t : State, s.halted = false → step s = .next t →
    SameRegsBut (.pc :: .rs :: destinations (decodeWord (s.mem.readWord s.fetchAddress))) s t

/-- R20, R21, R22: in one step of a running machine whose instruction does not name RS as its destination, the status bits the
instruction's row does not list and bits 15..5 of RS are kept (D8, D9, D10, D17, D18; SHIFT_FLAGS = ZNP). -/
def Obligations.OnlyListedFlagsChange : Prop :=
  ∀ s t : State, s.halted = false → s.params.shiftFlags = .znp → step s = .next t →
    Reg.rs ∉ destinations (decodeWord (s.mem.readWord s.fetchAddress)) →
    (∀ f, f ∉ flagsWritten (decodeWord (s.mem.readWord s.fetchAddress)) → t.flag f = s.flag f) ∧
    ∀ k, 5 ≤ k → (t.reg .rs).getLsbD k = (s.reg .rs).getLsbD k

/-- Only a STORE changes memory, and only its own word (R48, R49; the address is D4). -/
def Obligations.OnlyStoreChangesMemory : Prop :=
  ∀ s t : State, s.halted = false → step s = .next t →
    ((∀ a, decodeWord (s.mem.readWord s.fetchAddress) ≠ .store a) → SameMemory s t) ∧
    ∀ a, decodeWord (s.mem.readWord s.fetchAddress) = .store a → SameMemoryBut (addr28 (s.reg .rd) a) s t

/-- R112: the ways PC changes are the increment, a taken JUMP, and a register-format instruction whose destination is R15
(the increment modulo 2^16 is D3, the value a JUMP copies D7). -/
def Obligations.ProgramCounterSequence : Prop :=
  ∀ s t : State, s.halted = false → step s = .next t →
    Reg.pc ∉ destinations (decodeWord (s.mem.readWord s.fetchAddress)) →
    t.reg .pc = s.reg .pc + 1 ∨
    t.reg .pc = s.reg .rj ∧ ∃ m, decodeWord (s.mem.readWord s.fetchAddress) = .jump m ∧
      (m.getLsbD 5 = true ∨ ∃ f : Flag, m.getLsbD f.bit = true ∧ s.flag f = true)

/-- Only a HALT stops the processor (R31, R118; D19), and no step changes the parameters (log 27) or what was already sent to a
port (R52). -/
def Obligations.OnlyHaltHalts : Prop :=
  ∀ s t : State, s.halted = false → step s = .next t →
    (t.halted = true ↔ decodeWord (s.mem.readWord s.fetchAddress) = .halt) ∧ t.params = s.params ∧
    s.ioEvents <+: t.ioEvents

/-- A LOAD returns what the last STORE to its address stored, and a STORE to another address does not disturb it (R52, D24). -/
def Obligations.LoadReadsLastStore : Prop :=
  ∀ (a b : Offset) (s t u : State), s.kindAt (s.dataAddress a) = .readWrite → exec (.store a) s = .next t →
    exec (.load b) t = .next u → u.reg .acc = if b = a then s.reg .acc else s.mem.readWord (s.dataAddress b)

/-- A STORE to the address of the very next instruction is seen by its fetch (R54, D25; R149). -/
def Obligations.StoreSeenByNextFetch : Prop :=
  ∀ (a : Offset) (s : State), s.halted = false → s.kindAt s.fetchAddress = .readWrite →
    s.dataAddress a = s.fetchAddress →
    ∃ t, exec (.store a) s = .next t ∧ step t = exec (decodeWord (s.reg .acc)) t.advancePc

/-- A value moved to PC or RC steers the very next fetch: PC gives its low 12 bits, RC its page (R29, R147; D29, D30). -/
def Obligations.PcAndRcSteerNextFetch : Prop :=
  ∀ (r : Reg) (s : State),
    (∃ t, exec (.mov .pc r) s = .next t ∧
      t.fetchAddress.toNat = (s.reg .rc).toNat * 4096 + (s.reg r).toNat % 4096) ∧
    ∃ t, exec (.mov .rc r) s = .next t ∧
      t.fetchAddress.toNat = (s.reg r).toNat * 4096 + (s.reg .pc).toNat % 4096

/-- The page registers play no part in IN and OUT (R45; that ports take no page register the spec reads off the figures): another
page number before gives the same step but for that page number after. For an IN with nothing queued for its port this is the
model's choice (log 10, DESIGN CHOICE), not a rule: the free values two runs draw are one value where the draws, the port and
the words sent are equal. -/
def Obligations.PortsIgnorePageRegisters : Prop :=
  ∀ (port : Port) (s t : State) (r : Reg) (v : Word), r = .rc ∨ r = .rd →
    (exec (.inPort port) s = .next t → exec (.inPort port) (s.setReg r v) = .next (t.setReg r v)) ∧
    (exec (.outPort port) s = .next t → exec (.outPort port) (s.setReg r v) = .next (t.setReg r v))

/-- The parity bit of every status update is 1 exactly when the number of 1 bits is odd (R19). -/
def Obligations.ParityCountsOnes : Prop :=
  ∀ (s : State) (v : Word) (c o : Bool), (s.setZP v).flag .p = oddOnes v ∧ (s.setZNP v).flag .p = oddOnes v ∧
    (s.setZNCOP v c o).flag .p = oddOnes v

/-- The state right after reset: PC and RC at the spec's defaults (R34, D1; log 2), not halted (R34, D1); the model's choices are the
other registers at 0 (log 1), no byte listed, so that every byte reads 0 (log 3), and nothing sent to or queued at a port
(log 11). -/
def Obligations.ResetStateValues : Prop :=
  State.reset.reg .pc = 0 ∧ State.reset.reg .rc = 0 ∧ State.reset.halted = false ∧
  (∀ r, State.reset.reg r = 0) ∧ (∀ a, State.reset.mem.readByte a = 0) ∧ State.reset.ioEvents = [] ∧
  State.reset.ioAnswers = [] ∧ State.reset.params = .default

/-- A reset of the processor in any state (R140, D1; log 14): PC and RC at the parameters, not halted, memory, devices and
parameters untouched. The other registers are not fixed, so nothing is said of them. -/
def Obligations.ResetOfRunningMachine : Prop :=
  ∀ s : State, (resetProcessor s).reg .pc = s.params.resetPc ∧ (resetProcessor s).reg .rc = s.params.resetRc ∧
    (resetProcessor s).halted = false ∧ SameMemory s (resetProcessor s) ∧ SamePorts s (resetProcessor s) ∧
    (resetProcessor s).params = s.params
end

