-- ==== Sys2Proof/Laws/State.lean ====
section
/-! SUPPORT. One lemma per field per update of State, and what reading a register gives after an update. -/

namespace Sys2Proof.Machine

/-- Reading a register after writing one (R10): no register is hardwired, none shares storage with another. -/
@[simp] theorem RegFile.get_set (f : RegFile) (d r : Reg) (v : Word) :
    (f.set d v).get r = if r = d then v else f.get r := by
  cases d <;> cases r <;> rfl

section SetReg
variable (s : State) (r d : Reg) (v : Word)

@[simp] theorem State.setReg_halted : (s.setReg r v).halted = s.halted := rfl
@[simp] theorem State.setReg_mem : (s.setReg r v).mem = s.mem := rfl
@[simp] theorem State.setReg_ioEvents : (s.setReg r v).ioEvents = s.ioEvents := rfl
@[simp] theorem State.setReg_ioAnswers : (s.setReg r v).ioAnswers = s.ioAnswers := rfl
@[simp] theorem State.setReg_params : (s.setReg r v).params = s.params := rfl
@[simp] theorem State.setReg_draws : (s.setReg r v).draws = s.draws := rfl
@[simp] theorem State.setReg_regs : (s.setReg r v).regs = s.regs.set r v := rfl

@[simp] theorem State.reg_setReg : (s.setReg d v).reg r = if r = d then v else s.reg r := by
  simp [State.reg]

end SetReg

section SetFlag
variable (s : State) (f : Flag) (b : Bool)

@[simp] theorem State.setFlag_halted : (s.setFlag f b).halted = s.halted := rfl
@[simp] theorem State.setFlag_mem : (s.setFlag f b).mem = s.mem := rfl
@[simp] theorem State.setFlag_ioEvents : (s.setFlag f b).ioEvents = s.ioEvents := rfl
@[simp] theorem State.setFlag_ioAnswers : (s.setFlag f b).ioAnswers = s.ioAnswers := rfl
@[simp] theorem State.setFlag_params : (s.setFlag f b).params = s.params := rfl
@[simp] theorem State.setFlag_draws : (s.setFlag f b).draws = s.draws := rfl

@[simp] theorem State.reg_setFlag (r : Reg) :
    (s.setFlag f b).reg r = if r = .rs then writeBit (s.reg .rs) f.bit b else s.reg r := by
  simp [State.setFlag]

end SetFlag

section SetZP
variable (s : State) (v : Word)

@[simp] theorem State.setZP_halted : (s.setZP v).halted = s.halted := by simp [State.setZP]
@[simp] theorem State.setZP_mem : (s.setZP v).mem = s.mem := by simp [State.setZP]
@[simp] theorem State.setZP_ioEvents : (s.setZP v).ioEvents = s.ioEvents := by simp [State.setZP]
@[simp] theorem State.setZP_ioAnswers : (s.setZP v).ioAnswers = s.ioAnswers := by simp [State.setZP]
@[simp] theorem State.setZP_params : (s.setZP v).params = s.params := by simp [State.setZP]
@[simp] theorem State.setZP_draws : (s.setZP v).draws = s.draws := by simp [State.setZP]

@[simp] theorem State.setZNP_halted : (s.setZNP v).halted = s.halted := by simp [State.setZNP]
@[simp] theorem State.setZNP_mem : (s.setZNP v).mem = s.mem := by simp [State.setZNP]
@[simp] theorem State.setZNP_ioEvents : (s.setZNP v).ioEvents = s.ioEvents := by simp [State.setZNP]
@[simp] theorem State.setZNP_ioAnswers : (s.setZNP v).ioAnswers = s.ioAnswers := by simp [State.setZNP]
@[simp] theorem State.setZNP_params : (s.setZNP v).params = s.params := by simp [State.setZNP]
@[simp] theorem State.setZNP_draws : (s.setZNP v).draws = s.draws := by simp [State.setZNP]

variable (c o : Bool)

@[simp] theorem State.setZNCOP_halted : (s.setZNCOP v c o).halted = s.halted := by simp [State.setZNCOP]
@[simp] theorem State.setZNCOP_mem : (s.setZNCOP v c o).mem = s.mem := by simp [State.setZNCOP]
@[simp] theorem State.setZNCOP_ioEvents : (s.setZNCOP v c o).ioEvents = s.ioEvents := by simp [State.setZNCOP]
@[simp] theorem State.setZNCOP_ioAnswers : (s.setZNCOP v c o).ioAnswers = s.ioAnswers := by simp [State.setZNCOP]
@[simp] theorem State.setZNCOP_params : (s.setZNCOP v c o).params = s.params := by simp [State.setZNCOP]
@[simp] theorem State.setZNCOP_draws : (s.setZNCOP v c o).draws = s.draws := by simp [State.setZNCOP]

/-- The helpers of R7 write no register but RS. -/
theorem State.reg_setZP_of_ne {r : Reg} (h : r ≠ .rs) : (s.setZP v).reg r = s.reg r := by
  simp [State.setZP, h]

theorem State.reg_setZNP_of_ne {r : Reg} (h : r ≠ .rs) : (s.setZNP v).reg r = s.reg r := by
  simp [State.setZNP, h]

theorem State.reg_setZNCOP_of_ne {r : Reg} (h : r ≠ .rs) : (s.setZNCOP v c o).reg r = s.reg r := by
  simp [State.setZNCOP, h]

end SetZP

section Drawn
variable (s : State) (n : Nat)

@[simp] theorem State.drawn_regs : (s.drawn n).regs = s.regs := rfl
@[simp] theorem State.drawn_reg (r : Reg) : (s.drawn n).reg r = s.reg r := rfl
@[simp] theorem State.drawn_halted : (s.drawn n).halted = s.halted := rfl
@[simp] theorem State.drawn_mem : (s.drawn n).mem = s.mem := rfl
@[simp] theorem State.drawn_ioEvents : (s.drawn n).ioEvents = s.ioEvents := rfl
@[simp] theorem State.drawn_ioAnswers : (s.drawn n).ioAnswers = s.ioAnswers := rfl
@[simp] theorem State.drawn_params : (s.drawn n).params = s.params := rfl
@[simp] theorem State.drawn_draws : (s.drawn n).draws = s.draws + n := rfl

end Drawn

section IoWrite
variable (s : State) (port : Port) (v : Word)

@[simp] theorem State.ioWrite_regs : (s.ioWrite port v).regs = s.regs := rfl
@[simp] theorem State.ioWrite_reg (r : Reg) : (s.ioWrite port v).reg r = s.reg r := rfl
@[simp] theorem State.ioWrite_halted : (s.ioWrite port v).halted = s.halted := rfl
@[simp] theorem State.ioWrite_mem : (s.ioWrite port v).mem = s.mem := rfl
@[simp] theorem State.ioWrite_ioEvents : (s.ioWrite port v).ioEvents = s.ioEvents ++ [⟨port, v⟩] := rfl
@[simp] theorem State.ioWrite_ioAnswers : (s.ioWrite port v).ioAnswers = s.ioAnswers := rfl
@[simp] theorem State.ioWrite_params : (s.ioWrite port v).params = s.params := rfl
@[simp] theorem State.ioWrite_draws : (s.ioWrite port v).draws = s.draws := rfl

end IoWrite

section Cycle
variable (s : State) (v : Word)

@[simp] theorem State.halt_regs : s.halt.regs = s.regs := rfl
@[simp] theorem State.halt_reg (r : Reg) : s.halt.reg r = s.reg r := rfl
@[simp] theorem State.halt_halted : s.halt.halted = true := rfl
@[simp] theorem State.halt_mem : s.halt.mem = s.mem := rfl
@[simp] theorem State.halt_ioEvents : s.halt.ioEvents = s.ioEvents := rfl
@[simp] theorem State.halt_ioAnswers : s.halt.ioAnswers = s.ioAnswers := rfl
@[simp] theorem State.halt_params : s.halt.params = s.params := rfl
@[simp] theorem State.halt_draws : s.halt.draws = s.draws := rfl

@[simp] theorem State.jumpTo_halted : (s.jumpTo v).halted = s.halted := rfl
@[simp] theorem State.jumpTo_mem : (s.jumpTo v).mem = s.mem := rfl
@[simp] theorem State.jumpTo_ioEvents : (s.jumpTo v).ioEvents = s.ioEvents := rfl
@[simp] theorem State.jumpTo_ioAnswers : (s.jumpTo v).ioAnswers = s.ioAnswers := rfl
@[simp] theorem State.jumpTo_params : (s.jumpTo v).params = s.params := rfl
@[simp] theorem State.jumpTo_draws : (s.jumpTo v).draws = s.draws := rfl
@[simp] theorem State.reg_jumpTo (r : Reg) : (s.jumpTo v).reg r = if r = .pc then v else s.reg r := by
  simp [State.jumpTo]

@[simp] theorem State.advancePc_halted : s.advancePc.halted = s.halted := rfl
@[simp] theorem State.advancePc_mem : s.advancePc.mem = s.mem := rfl
@[simp] theorem State.advancePc_ioEvents : s.advancePc.ioEvents = s.ioEvents := rfl
@[simp] theorem State.advancePc_ioAnswers : s.advancePc.ioAnswers = s.ioAnswers := rfl
@[simp] theorem State.advancePc_params : s.advancePc.params = s.params := rfl
@[simp] theorem State.advancePc_draws : s.advancePc.draws = s.draws := rfl
@[simp] theorem State.reg_advancePc (r : Reg) :
    s.advancePc.reg r = if r = .pc then s.reg .pc + 1 else s.reg r := by
  simp [State.advancePc]

end Cycle

end Sys2Proof.Machine
end

