-- ==== Sys2Proof/Laws/Flags.lean ====
section
/-! SUPPORT. Once for each flag helper, every bit of RS it leaves. -/

namespace Sys2Proof.Machine

/-- Writing one bit of a word writes that bit and no other. -/
theorem getLsbD_writeBit (w : Word) (k j : Nat) (b : Bool) (hk : k < 16) :
    (writeBit w k b).getLsbD j = if j = k then b else w.getLsbD j := by
  by_cases hj : j < 16
  · rcases Nat.lt_trichotomy j k with h | h | h
    · have h1 : ¬j = k := by omega
      cases b <;> simp [writeBit, hj, h, h1]
    · subst h
      cases b <;> simp [writeBit, hj]
    · have h1 : ¬j = k := by omega
      have h2 : ¬j - k = 0 := by omega
      cases b <;> simp [writeBit, hj, h1, h2]
  · have hw : w.getLsbD j = false := BitVec.getLsbD_of_ge w j (by omega)
    have h1 : ¬j = k := by omega
    rw [BitVec.getLsbD_of_ge _ j (by omega), hw, if_neg h1]

theorem ne_status_bit {k : Nat} (h : 5 ≤ k) : k ≠ 0 ∧ k ≠ 1 ∧ k ≠ 2 ∧ k ≠ 3 ∧ k ≠ 4 := by omega

theorem Flag.bit_lt (f : Flag) : f.bit < 16 := by cases f <;> decide

/-- After one status bit is written, RS holds it and is otherwise as before. -/
theorem State.rs_setFlag_getLsbD (s : State) (f : Flag) (b : Bool) (j : Nat) :
    ((s.setFlag f b).reg .rs).getLsbD j = if j = f.bit then b else (s.reg .rs).getLsbD j := by
  simp [getLsbD_writeBit _ _ _ _ f.bit_lt]

/-- set_ZP (R7) writes Z and P and leaves every other bit of RS. -/
theorem State.setZP_status (s : State) (v : Word) :
    StatusAfter (s.reg .rs) ((s.setZP v).reg .rs) (some (isZero v)) none none none (some (parity v)) := by
  refine ⟨?_, ?_, ?_, ?_, ?_, fun k hk => ?_⟩
  case refine_6 =>
    obtain ⟨h0, h1, h2, h3, h4⟩ := ne_status_bit hk
    simp [State.setZP, Flag.bit, -State.reg_setFlag, State.rs_setFlag_getLsbD, h0, h4]
  all_goals (simp only [State.setZP, State.rs_setFlag_getLsbD, Flag.bit]; rfl)

/-- set_ZNP (R7) writes Z, N and P and leaves every other bit of RS. -/
theorem State.setZNP_status (s : State) (v : Word) :
    StatusAfter (s.reg .rs) ((s.setZNP v).reg .rs) (some (isZero v)) (some (isNegative v)) none none
      (some (parity v)) := by
  refine ⟨?_, ?_, ?_, ?_, ?_, fun k hk => ?_⟩
  case refine_6 =>
    obtain ⟨h0, h1, h2, h3, h4⟩ := ne_status_bit hk
    simp [State.setZNP, Flag.bit, -State.reg_setFlag, State.rs_setFlag_getLsbD, h0, h1, h4]
  all_goals (simp only [State.setZNP, State.rs_setFlag_getLsbD, Flag.bit]; rfl)

/-- set_ZNCOP (R7) writes the five status bits and leaves bits 15 to 5 of RS. -/
theorem State.setZNCOP_status (s : State) (v : Word) (c o : Bool) :
    StatusAfter (s.reg .rs) ((s.setZNCOP v c o).reg .rs) (some (isZero v)) (some (isNegative v)) (some c) (some o)
      (some (parity v)) := by
  refine ⟨?_, ?_, ?_, ?_, ?_, fun k hk => ?_⟩
  case refine_6 =>
    obtain ⟨h0, h1, h2, h3, h4⟩ := ne_status_bit hk
    simp [State.setZNCOP, Flag.bit, -State.reg_setFlag, State.rs_setFlag_getLsbD, h0, h1, h2, h3, h4]
  all_goals (simp only [State.setZNCOP, State.rs_setFlag_getLsbD, Flag.bit]; rfl)

/-- The status bits of SHIFT write RS alone, and none but bits 4..0 of it. -/
theorem State.setShiftFlags_frame (s : State) (r v : Word) (np : Nat) :
    SameRegsBut [.rs] s (s.setShiftFlags r v np) ∧ (s.setShiftFlags r v np).mem = s.mem ∧
      SamePorts s (s.setShiftFlags r v np) ∧ SameControl s (s.setShiftFlags r v np) ∧
      ∀ k, 5 ≤ k → ((s.setShiftFlags r v np).reg .rs).getLsbD k = (s.reg .rs).getLsbD k := by
  cases h : s.params.shiftFlags
  · simp only [State.setShiftFlags, h]
    refine ⟨fun q hq => ?_, by simp, by simp [SamePorts], by simp [SameControl], (State.setZNP_status s r).2.2.2.2.2⟩
    exact State.reg_setZNP_of_ne s r (by simpa using hq)
  · simp only [State.setShiftFlags, h]
    refine ⟨fun q hq => ?_, by simp, by simp [SamePorts], by simp [SameControl], fun k hk => ?_⟩
    · have hq : q ≠ .rs := by simpa using hq
      simp [hq]
    · obtain ⟨h0, h1, h2, h3, h4⟩ := ne_status_bit hk
      simp [Flag.bit, -State.reg_setFlag, State.rs_setFlag_getLsbD, h0, h1, h2, h3, h4]

end Sys2Proof.Machine
end

