-- ==== Sys2Proof/Laws/Memory.lean ====
section
/-! SUPPORT. The laws of memory: read after write, a write leaves every other byte alone, every operation keeps the canonical
form; and what the operations under MEM_MAP can do. -/

namespace Sys2Proof.Machine

theorem Memory.readByte_remove (m : Memory) (a b : Nat) :
    (m.remove a).readByte b = if b = a then unlistedByte else m.readByte b := by
  induction m with
  | nil => simp [Memory.remove, Memory.readByte]
  | cons cell m ih =>
    obtain ⟨k, v⟩ := cell
    have ih : Memory.readByte (List.filter (fun cell => cell.1 != a) m) b =
      if b = a then unlistedByte else Memory.readByte m b := ih
    by_cases hk : k = a
    · subst hk
      by_cases hb : b = k
      · subst hb; simp [Memory.remove, ih]
      · simp [Memory.remove, ih, Memory.readByte, hb, eq_comm (a := k)]
    · by_cases hb : k = b
      · subst hb; simp [Memory.remove, Memory.readByte, hk]
      · simp [Memory.remove, Memory.readByte, hk, hb, ih]

theorem Memory.mem_remove (m : Memory) (a : Nat) (cell : Host.Cell) :
    cell ∈ m.remove a ↔ cell ∈ m ∧ cell.1 ≠ a := by
  simp [Memory.remove]

theorem Memory.readByte_insert (m : Memory) (a b : Nat) (v : Byte) (h : ∀ cell ∈ m, cell.1 ≠ a) :
    (Memory.insert a v m).readByte b = if b = a then v else m.readByte b := by
  induction m with
  | nil => simp [Memory.insert, Memory.readByte, eq_comm]
  | cons cell m ih =>
    obtain ⟨k, u⟩ := cell
    have hk : k ≠ a := h (k, u) (by simp)
    have ih := ih fun cell hc => h cell (by simp [hc])
    unfold Memory.insert
    split
    · by_cases hb : b = a
      · subst hb; simp [Memory.readByte]
      · simp [Memory.readByte, hb, eq_comm (a := a)]
    · by_cases hb : k = b
      · subst hb; simp [Memory.readByte, hk]
      · simp [Memory.readByte, hb, ih]

/-- Reading one byte after writing one. -/
theorem Memory.readByte_writeByte (m : Memory) (a b : Nat) (v : Byte) :
    (m.writeByte a v).readByte b = if b = a then v else m.readByte b := by
  unfold Memory.writeByte
  split
  · next h => rw [Memory.readByte_remove, h]
  · rw [Memory.readByte_insert _ _ _ _ fun cell hc => ((Memory.mem_remove m a cell).1 hc).2, Memory.readByte_remove]
    split <;> rfl

/-- Reading one byte after writing a word: its two bytes hold it, every other byte is as before (R49). -/
theorem Memory.readByte_writeWord (m : Memory) (a : WordAddr) (v : Word) (b : Nat) :
    (m.writeWord a v).readByte b =
      if b = byteAddr a + 1 then highByte v else if b = byteAddr a then lowByte v else m.readByte b := by
  simp [Memory.writeWord, Memory.readByte_writeByte]

theorem wordOf_bytes (v : Word) : wordOf (highByte v) (lowByte v) = v := by
  apply BitVec.eq_of_getLsbD_eq
  intro k hk
  rw [wordOf, BitVec.getLsbD_append]
  by_cases h : k < 8
  · simp [lowByte, h, hk]
  · simp only [highByte, h, if_false, BitVec.getLsbD_extractLsb', show k - 8 < 8 by omega, decide_true, Bool.true_and,
      show 8 + (k - 8) = k by omega]

/-- Reading the word just written. -/
theorem Memory.readWord_writeWord (m : Memory) (a : WordAddr) (v : Word) : (m.writeWord a v).readWord a = v := by
  simp [Memory.readWord, Memory.readByte_writeWord, wordOf_bytes]

/-- Reading another word than the one written. -/
theorem Memory.readWord_writeWord_of_ne (m : Memory) (a b : WordAddr) (v : Word) (h : b ≠ a) :
    (m.writeWord a v).readWord b = m.readWord b := by
  have hn : b.toNat ≠ a.toNat := fun e => h (BitVec.eq_of_toNat_eq e)
  have h2 : byteAddr b + 1 ≠ byteAddr a := by simp only [byteAddr]; omega
  have h3 : byteAddr b ≠ byteAddr a + 1 := by simp only [byteAddr]; omega
  have h4 : byteAddr b ≠ byteAddr a := by simp only [byteAddr]; omega
  simp [Memory.readWord, Memory.readByte_writeWord, h2, h3, h4]

/-! The canonical form -/

theorem Memory.rising_iff (m : Memory) : Memory.rising m = true ↔ m.Pairwise fun x y => x.1 < y.1 := by
  induction m with
  | nil => simp [Memory.rising]
  | cons x m ih =>
    obtain ⟨a, v⟩ := x
    cases m with
    | nil => simp [Memory.rising]
    | cons y m =>
      obtain ⟨b, u⟩ := y
      rw [Memory.rising, Bool.and_eq_true, ih, List.pairwise_cons (a := (a, v))]
      constructor
      · rintro ⟨h, hp⟩
        refine ⟨fun z hz => ?_, hp⟩
        have h : a < b := by simpa using h
        rcases List.mem_cons.1 hz with rfl | hz
        · exact h
        · exact lt_trans h ((List.pairwise_cons.1 hp).1 z hz)
      · rintro ⟨h, hp⟩
        exact ⟨by simpa using h (b, u) (by simp), hp⟩

theorem Memory.wf_iff (m : Memory) :
    m.wf = true ↔ (m.Pairwise fun x y => x.1 < y.1) ∧
      ∀ cell ∈ m, cell.1 < memoryBytes ∧ cell.2 ≠ unlistedByte := by
  simp [Memory.wf, Memory.rising_iff]

theorem Memory.wf_nil : Memory.wf [] = true := rfl

theorem Memory.wf_remove {m : Memory} (h : m.wf = true) (a : Nat) : (m.remove a).wf = true := by
  rw [Memory.wf_iff] at *
  exact ⟨h.1.filter _, fun cell hc => h.2 cell ((Memory.mem_remove m a cell).1 hc).1⟩

theorem Memory.mem_insert (m : Memory) (a : Nat) (v : Byte) (cell : Host.Cell) :
    cell ∈ Memory.insert a v m ↔ cell = (a, v) ∨ cell ∈ m := by
  induction m with
  | nil => simp [Memory.insert]
  | cons x m ih =>
    unfold Memory.insert
    split
    · simp
    · simp only [List.mem_cons, ih]
      tauto

theorem Memory.wf_insert {m : Memory} (h : m.wf = true) (a : Nat) (v : Byte) (hn : ∀ cell ∈ m, cell.1 ≠ a)
    (ha : a < memoryBytes) (hv : v ≠ unlistedByte) : (Memory.insert a v m).wf = true := by
  rw [Memory.wf_iff] at *
  refine ⟨?_, fun cell hc => ?_⟩
  · have hp := h.1
    clear h
    induction m with
    | nil => simp [Memory.insert]
    | cons x m ih =>
      obtain ⟨k, u⟩ := x
      obtain ⟨h1, h2⟩ := List.pairwise_cons.1 hp
      unfold Memory.insert
      split
      · next hlt =>
        refine List.pairwise_cons.2 ⟨fun z hz => ?_, hp⟩
        rcases List.mem_cons.1 hz with rfl | hz
        · exact hlt
        · exact lt_trans hlt (h1 z hz)
      · next hlt =>
        have hk : k ≠ a := hn (k, u) (by simp)
        refine List.pairwise_cons.2 ⟨fun z hz => ?_, ih (fun cell hc => hn cell (by simp [hc])) h2⟩
        rcases (Memory.mem_insert m a v z).1 hz with rfl | hz
        · show k < a; omega
        · exact h1 z hz
  · rcases (Memory.mem_insert m a v cell).1 hc with rfl | hc
    · exact ⟨ha, hv⟩
    · exact h.2 cell hc

/-- Writing a byte keeps the canonical form. -/
theorem Memory.wf_writeByte {m : Memory} (h : m.wf = true) (a : Nat) (v : Byte) (ha : a < memoryBytes) :
    (m.writeByte a v).wf = true := by
  unfold Memory.writeByte
  split
  · exact Memory.wf_remove h a
  · next hv =>
    exact Memory.wf_insert (Memory.wf_remove h a) a v (fun cell hc => ((Memory.mem_remove m a cell).1 hc).2) ha hv

/-- Every word's two bytes lie in the address space (R44). -/
theorem byteAddr_lt (a : WordAddr) : byteAddr a + 1 < memoryBytes := by
  have := a.isLt
  simp only [byteAddr, memoryBytes]
  omega

/-- Writing a word keeps the canonical form. -/
theorem Memory.wf_writeWord {m : Memory} (h : m.wf = true) (a : WordAddr) (v : Word) :
    (m.writeWord a v).wf = true := by
  have := byteAddr_lt a
  exact Memory.wf_writeByte (Memory.wf_writeByte h _ _ (by omega)) _ _ this

/-- Placing an image keeps the canonical form. -/
theorem State.wf_loadImage (s : State) (a : WordAddr) (ws : List Word) (h : s.mem.wf = true) :
    (s.loadImage a ws).mem.wf = true := by
  induction ws generalizing s a with
  | nil => exact h
  | cons w ws ih => exact ih _ _ (Memory.wf_writeWord h a w)

/-- The memory after reset has the canonical form. -/
theorem State.reset_mem_wf : State.reset.mem.wf = true := rfl

/-! Access under MEM_MAP -/

/-- All a load can do: the word, where the address is backed; the fault of R50, where it is not. -/
theorem State.loadWord_cases (s : State) (a : WordAddr) :
    (s.kindAt a ≠ .absent ∧ s.loadWord a = .ok (s.mem.readWord a)) ∨
    (s.kindAt a = .absent ∧ s.loadWord a = .error (.absentWord a)) := by
  unfold State.loadWord
  cases s.kindAt a <;> simp

theorem State.loadWord_ok {s : State} {a : WordAddr} (h : s.kindAt a ≠ .absent) :
    s.loadWord a = .ok (s.mem.readWord a) := by
  rcases s.loadWord_cases a with ⟨-, h'⟩ | ⟨h', -⟩
  · exact h'
  · exact absurd h' h

/-- All a store can do: write the word, drop it, or stop by a fault of its own name. -/
theorem State.storeWord_cases (s : State) (a : WordAddr) (v : Word) :
    (s.kindAt a = .readWrite ∧ s.storeWord a v = .ok { s with mem := s.mem.writeWord a v }) ∨
    (s.kindAt a = .readOnly ∧ s.params.romStore = .dropped ∧ s.storeWord a v = .ok s) ∨
    (s.kindAt a = .readOnly ∧ s.params.romStore = .faults ∧ s.storeWord a v = .error (.readOnlyWord a)) ∨
    (s.kindAt a = .absent ∧ s.storeWord a v = .error (.absentWord a)) := by
  unfold State.storeWord
  cases s.kindAt a <;> cases s.params.romStore <;> simp

end Sys2Proof.Machine
end

