-- ==== Sys2Proof/Laws/Exec.lean ====
section
/-! SUPPORT. What each shared operation and a step can do, said once. -/

namespace Sys2Proof.Machine

theorem orFault_ok {α : Type} (x : α) (k : α → StepResult) : orFault (.ok x) k = k x := rfl

/-- Going on past a possible fault: it answers a next state only where there was none. -/
theorem orFault_next {α : Type} {r : Except Fault α} {k : α → StepResult} {t : State} (h : orFault r k = .next t) :
    ∃ x, r = .ok x ∧ k x = .next t := by
  cases r with
  | ok x => exact ⟨x, rfl, h⟩
  | error f => cases h

/-- All an IoRead can do: take the first word queued for the port, or draw a free one. -/
theorem State.ioRead_cases (s : State) (port : Port) :
    (∃ v left, takeAnswer port s.ioAnswers = some (v, left) ∧ s.ioRead port = (v, { s with ioAnswers := left })) ∨
    (takeAnswer port s.ioAnswers = none ∧
      s.ioRead port = (Config.ioAnswer s.draws port s.ioEvents, s.drawn 1)) := by
  unfold State.ioRead
  cases h : takeAnswer port s.ioAnswers with
  | none => exact .inr ⟨rfl, rfl⟩
  | some x => exact .inl ⟨x.1, x.2, rfl, rfl⟩

/-- An IoRead changes no register, memory, event or parameter. -/
theorem State.ioRead_frame (s : State) (port : Port) :
    (s.ioRead port).2.regs = s.regs ∧ (s.ioRead port).2.mem = s.mem ∧ (s.ioRead port).2.ioEvents = s.ioEvents ∧
      (s.ioRead port).2.halted = s.halted ∧ (s.ioRead port).2.params = s.params := by
  rcases s.ioRead_cases port with ⟨v, left, -, h⟩ | ⟨-, h⟩ <;> simp [h]

/-- IN, with the port read once. -/
theorem execIn_eq (port : Port) (s : State) :
    execIn port s = .next (((s.ioRead port).2.setReg .acc (s.ioRead port).1).setZNP (s.ioRead port).1) := rfl

/-- SUB, with C of SUB_CARRY computed once. -/
theorem execSub_eq (dst fst snd : Reg) (s : State) :
    execSub dst fst snd s =
      .next (((s.subCarry (s.reg fst) (s.reg snd)).2.setReg dst (s.reg fst - s.reg snd)).setZNCOP
        (s.reg fst - s.reg snd) (s.subCarry (s.reg fst) (s.reg snd)).1
        (subOverflow (s.reg fst) (s.reg snd) (s.reg fst - s.reg snd))) := rfl

/-- C of SUB changes nothing but the count of draws. -/
theorem State.subCarry_frame (s : State) (a b : Word) : ∃ n, (s.subCarry a b).2 = s.drawn n := by
  unfold State.subCarry
  cases s.params.subCarry
  · exact ⟨0, rfl⟩
  · exact ⟨0, rfl⟩
  · exact ⟨1, rfl⟩

/-- All a step can do: idle while halted, or run the word fetched after PC is incremented. -/
theorem step_next {s t : State} (h : step s = .next t) :
    (s.halted = true ∧ t = s) ∨
    (s.halted = false ∧ s.kindAt s.fetchAddress ≠ .absent ∧
      exec (decodeWord (s.mem.readWord s.fetchAddress)) s.advancePc = .next t) := by
  unfold step at h
  cases hh : s.halted with
  | true => simp only [hh, if_true] at h; cases h; exact .inl ⟨rfl, rfl⟩
  | false =>
    simp only [hh, Bool.false_eq_true, if_false] at h
    obtain ⟨w, hw, hx⟩ := orFault_next h
    rcases s.loadWord_cases s.fetchAddress with ⟨hk, ho⟩ | ⟨-, he⟩
    · rw [State.fetch, ho] at hw; cases hw; exact .inr ⟨rfl, hk, hx⟩
    · rw [State.fetch, he] at hw; cases hw

/-- A running machine at a backed word runs the word fetched. -/
theorem step_running {s : State} (hr : s.halted = false) (hk : s.kindAt s.fetchAddress ≠ .absent) :
    step s = exec (decodeWord (s.mem.readWord s.fetchAddress)) s.advancePc := by
  simp [step, hr, State.fetch, State.loadWord_ok hk, orFault_ok]

end Sys2Proof.Machine
end

