-- ==== Sys2Proof/Laws/PerInstr.lean ====
section
/-! SUPPORT. The per-instruction family EncodedOpcode: the canonical word of an instruction carries its operation code in
I[15:12] (R61, R70). -/

namespace Sys2Proof

/-- COP of a word is whatever stands in front of its low twelve bits. -/
theorem copField_append (cop : BitVec 4) (low : BitVec 12) : copField (cop ++ low) = cop :=
  BitVec.extractLsb'_append_eq_left

end Sys2Proof

namespace Sys2Proof.Laws.EncodedOpcode

/-- COP of the canonical word is the instruction's. -/
def Statement (i : Sys2Proof.Instr) : Prop := copField (encode i) = i.opcode

theorem nop : Statement .nop := copField_append _ _

theorem li (lb : ByteSel) (podatak : Byte) : Statement (.li lb podatak) := copField_append _ _

theorem load (adresa : Offset) : Statement (.load adresa) := copField_append _ _

theorem store (adresa : Offset) : Statement (.store adresa) := copField_append _ _

theorem add (dst fst snd : Reg) : Statement (.add dst fst snd) := copField_append _ _

theorem sub (dst fst snd : Reg) : Statement (.sub dst fst snd) := copField_append _ _

theorem mov (dst src : Reg) : Statement (.mov dst src) := copField_append _ _

theorem notReg (dst src : Reg) : Statement (.notReg dst src) := copField_append _ _

theorem orReg (dst fst snd : Reg) : Statement (.orReg dst fst snd) := copField_append _ _

theorem andReg (dst fst snd : Reg) : Statement (.andReg dst fst snd) := copField_append _ _

theorem xorReg (dst fst snd : Reg) : Statement (.xorReg dst fst snd) := copField_append _ _

theorem shift (ind : Direction) (src : Reg) (np : Nat) : Statement (.shift ind src np) := copField_append _ _

theorem jump (maska : BitVec 6) : Statement (.jump maska) := copField_append _ _

theorem inPort (adresa : Port) : Statement (.inPort adresa) := copField_append _ _

theorem outPort (adresa : Port) : Statement (.outPort adresa) := copField_append _ _

theorem halt : Statement .halt := copField_append _ _

end Sys2Proof.Laws.EncodedOpcode
end

