-- ==== Sys2Proof/Machine/Assembly.lean ====
section
/-! DEFINITION. The assembler's names and syntax (spec/30_encoding.md R74 to R77, D21): how an instruction is written. No step
depends on it; the numbers are written 0x-hex or as the mask's binary string, as the spec writes them (log 26). -/

namespace Sys2Proof

/-- R0 to R15 (R75). -/
def Reg.name : Reg → String
  | .r0 => "R0" | .r1 => "R1" | .r2 => "R2" | .r3 => "R3" | .r4 => "R4" | .r5 => "R5" | .r6 => "R6" | .r7 => "R7"
  | .acc => "R8" | .rs => "R9" | .rj => "R10" | .rc => "R11" | .rd => "R12" | .rx => "R13" | .rb => "R14" | .pc => "R15"

/-- The register a name stands for: R0 to R15, and the source's other names as synonyms (R75). -/
def Reg.ofName (n : String) : Option Reg :=
  ([("R0", Reg.r0), ("R1", .r1), ("R2", .r2), ("R3", .r3), ("R4", .r4), ("R5", .r5), ("R6", .r6), ("R7", .r7),
    ("R8", .acc), ("R9", .rs), ("R10", .rj), ("R11", .rc), ("R12", .rd), ("R13", .rx), ("R14", .rb), ("R15", .pc),
    ("RA", .acc), ("ACC", .acc), ("acc", .acc), ("RS", .rs), ("RJ", .rj), ("RC", .rc), ("RD", .rd), ("RX", .rx),
    ("RB", .rb), ("PC", .pc)] : List (String × Reg)).lookup n

/-- The mnemonic of an instruction (R70). -/
def Instr.mnemonic : Instr → String
  | .nop => "NOP" | .li _ _ => "LI" | .load _ => "LOAD" | .store _ => "STORE" | .add _ _ _ => "ADD"
  | .sub _ _ _ => "SUB" | .mov _ _ => "MOV" | .notReg _ _ => "NOT" | .orReg _ _ _ => "OR" | .andReg _ _ _ => "AND"
  | .xorReg _ _ _ => "XOR" | .shift _ _ _ => "SHIFT" | .jump _ => "JUMP" | .inPort _ => "IN" | .outPort _ => "OUT"
  | .halt => "HALT"

/-- One hexadecimal digit. -/
def hexDigit (d : Nat) : String :=
  ["0", "1", "2", "3", "4", "5", "6", "7", "8", "9", "A", "B", "C", "D", "E", "F"].getD d "?"

/-- A number of `digits` hexadecimal digits. -/
def hexDigits : Nat → Nat → String
  | 0, _ => ""
  | digits + 1, v => hexDigits digits (v / 16) ++ hexDigit (v % 16)

/-- The mask of JUMP as the source writes it, J first (R68, R74). -/
def maskDigits (m : BitVec 6) : String :=
  String.join ([5, 4, 3, 2, 1, 0].map fun k => if m.getLsbD k then "1" else "0")

/-- The operands of a three-address instruction (R74): destination, first, second. -/
def threeRegs (dst fst snd : Reg) : String := " " ++ dst.name ++ ", " ++ fst.name ++ ", " ++ snd.name

/-- How an instruction is written (R74, D21). -/
def Instr.assembly (i : Instr) : String :=
  i.mnemonic ++
  match i with
  | .nop | .halt => ""
  | .li lb podatak => " " ++ (match lb with | .lower => "0" | .upper => "1") ++ ", 0x" ++ hexDigits 2 podatak.toNat
  | .load a | .store a | .inPort a | .outPort a => " 0x" ++ hexDigits 3 a.toNat
  | .add d a b | .sub d a b | .orReg d a b | .andReg d a b | .xorReg d a b => threeRegs d a b
  | .mov dst src | .notReg dst src => " " ++ dst.name ++ ", " ++ src.name
  | .shift ind src np =>
    " " ++ (match ind with | .left => "0" | .right => "1") ++ ", " ++ src.name ++ ", " ++ toString np
  | .jump maska => " " ++ maskDigits maska

end Sys2Proof
end

