-- ==== Sys2Proof/Tests/Slice0.lean ====
section
/-! SUPPORT. The author's own tests: words and values are those of spec/95_test_vectors.md (E, V) and of the examples in the
rules; then, for every statement with hypotheses, a concrete state and operands that meet them. -/

namespace Sys2Proof.Tests

open Sys2Proof.Machine

/-! A small state: the reset state with some registers, one word at the fetch address (page 0, address 0) and one data word -/

/-- The reset state with registers set. -/
def withRegs (rs : List (Reg × Word)) : State := rs.foldl (fun s p => s.setReg p.1 p.2) .reset

/-- A state that runs one word next. -/
def running (w : Word) (rs : List (Reg × Word)) : State := (withRegs rs).withFetchWord 16 w.toNat

/-- The next state of an outcome. -/
def nextOf : StepResult → Option State
  | .next t => some t
  | .fault _ | .refused _ => none

/-- One register after one step of a word. -/
def regAfter (w : Word) (rs : List (Reg × Word)) (r : Reg) : Option Word := (nextOf (step (running w rs))).map (·.reg r)

/-- The reset state on a platform with a map and a choice for read-only stores. -/
def onPlatform (map : List Region) (rom : RomStore) : State :=
  { State.reset with params := { Params.default with memMap := map, romStore := rom } }

/-! WellFormed -/

theorem test_wf_refuses_shift_by_16 : Instr.wellFormed (.shift .left .r0 16) = false := by decide
theorem test_wf_accepts_shift_by_15 : Instr.wellFormed (.shift .left .r0 15) = true := by decide

/-! Decoding: one word of every row of the opcode table, bit by bit from its pattern (R70), and its operands -/

theorem test_decode_nop : decodeWord 0b0000101010111100 = .nop := by decide
theorem test_decode_li : decodeWord 0b0001111100010010 = .li .upper 0x12 := by decide
theorem test_decode_load : decodeWord 0b0010111111111111 = .load 0xFFF := by decide
theorem test_decode_store : decodeWord 0b0011000100000010 = .store 0x102 := by decide
theorem test_decode_add : decodeWord 0b0100001100100001 = .add .r3 .r1 .r2 := by decide
theorem test_decode_sub : decodeWord 0b0101001100010010 = .sub .r3 .r2 .r1 := by decide
theorem test_decode_mov : decodeWord 0b0110000110001111 = .mov .r1 .acc := by decide
theorem test_decode_not : decodeWord 0b0111100000110000 = .notReg .acc .r3 := by decide
theorem test_decode_or : decodeWord 0b1000001100100001 = .orReg .r3 .r1 .r2 := by decide
theorem test_decode_and : decodeWord 0b1001001010000001 = .andReg .r2 .r1 .acc := by decide
theorem test_decode_xor : decodeWord 0b1010001100100001 = .xorReg .r3 .r1 .r2 := by decide
theorem test_decode_shift : decodeWord 0b1011111000101111 = .shift .left .r2 15 := by decide
theorem test_decode_jump : decodeWord 0b1100111111000001 = .jump 0b000001 := by decide
theorem test_decode_in : decodeWord 0b1101000000010000 = .inPort 0x010 := by decide
theorem test_decode_out : decodeWord 0b1110000000010001 = .outPort 0x011 := by decide
theorem test_decode_halt : decodeWord 0b1111111111111111 = .halt := by decide
/-- R9 to R15 in the three fields of one word. -/
theorem test_decode_special_registers : decodeWord 0x49AB = .add .rs .rc .rj ∧ decodeWord 0x5CDE = .sub .rd .rb .rx ∧
    decodeWord 0x6F10 = .mov .pc .r1 := by decide
theorem test_decode_truncated : decode [0x21] = .error .truncated := by decide
theorem test_decode_table_word : decodeTableWord 16 0x4321 = some (.add .r3 .r1 .r2) := by decide
/-- R74: SUB R3, R1, R2 is the word 0x5321; R108: SHIFT 1, R3, 8 is 0xB138. -/
theorem test_encode : encode (.sub .r3 .r1 .r2) = 0x5321 ∧ encode (.shift .right .r3 8) = 0xB138 ∧
    encode (.mvr .r1) = 0x6180 := by decide
theorem test_assembly : (Instr.sub .r3 .r1 .r2).assembly = "SUB R3, R1, R2" := by decide

/-! Flag helpers -/

/-- R18 with R96's corner cases. -/
theorem test_add_overflow : addOverflow 0x7FFF 0x0001 0x8000 = true ∧ addOverflow 0x8000 0x8000 0x0000 = true ∧
    addOverflow 0xFFFF 0x0001 0x0000 = false := by decide
theorem test_parity : parity 0x0000 = false ∧ parity 0x0001 = true ∧ parity 0xFFFF = false ∧ parity 0x0007 = true := by decide

/-! One step of each instruction -/

/-- V9: NOP with ignored bits set. -/
theorem test_nop : regAfter 0x0ABC [] .pc = some 0x0001 := by decide
/-- V4: the flags describe the whole accumulator. -/
theorem test_li_lower : regAfter 0x1034 [(.acc, 0xABCD), (.rs, 0b01100)] .acc = some 0xAB34 ∧
    regAfter 0x1034 [(.acc, 0xABCD), (.rs, 0b01100)] .rs = some 0b01110 := by decide
theorem test_li_upper : regAfter 0x1112 [(.acc, 0xAB34), (.rs, 0b01100)] .acc = some 0x1234 ∧
    regAfter 0x1112 [(.acc, 0xAB34), (.rs, 0b01100)] .rs = some 0b11100 := by decide
/-- V5: LOAD of its own word. -/
theorem test_load_itself : regAfter 0x2000 [(.rs, 0b01100)] .acc = some 0x2000 ∧
    regAfter 0x2000 [(.rs, 0b01100)] .rs = some 0b11100 := by decide
/-- V5: RD = 0xFFFF and address 0xFFF is the last word of memory. -/
theorem test_load_top : (withRegs [(.rd, 0xFFFF)]).dataAddress 0xFFF = 0xFFFFFFF := by decide
/-- V5: STORE 0x102 under RD = 1. -/
theorem test_store : (nextOf (step (running 0x3102 [(.rd, 1), (.acc, 0x2224)]))).map (·.mem.readWord 0x0001102) = some 0x2224 := by
  decide
theorem test_store_status : regAfter 0x3102 [(.rd, 1), (.acc, 0), (.rs, 0b01100)] .rs = some 0b01101 := by decide
/-- V1. -/
theorem test_add_overflows : regAfter 0x4321 [(.r1, 0x7FFF), (.r2, 1)] .r3 = some 0x8000 ∧
    regAfter 0x4321 [(.r1, 0x7FFF), (.r2, 1)] .rs = some 0b11010 := by decide
/-- V11: R9 as destination, then the flags overwrite. -/
theorem test_add_to_status : regAfter 0x4900 [(.r0, 0x0011)] .rs = some 0x0020 := by decide
/-- V2: operand order; C depends on SUB_CARRY and is left out. -/
theorem test_sub_order : regAfter 0x5312 [(.r1, 5), (.r2, 3)] .r3 = some 0xFFFE := by decide
/-- V2: 0x8000 - 0x0001 under both values of SUB_CARRY. -/
theorem test_sub_carry :
    ({ withRegs [] with params := { Params.default with subCarry := .carryOut } }.subCarry 0x8000 1).1 = true ∧
    ({ withRegs [] with params := { Params.default with subCarry := .borrow } }.subCarry 0x8000 1).1 = false ∧
    subOverflow 0x8000 1 0x7FFF = true := by decide
/-- V6: I[3:0] of MOV is ignored. -/
theorem test_mov : regAfter 0x618F [(.acc, 0x8000), (.rs, 0b01100)] .r1 = some 0x8000 ∧
    regAfter 0x618F [(.acc, 0x8000), (.rs, 0b01100)] .rs = some 0b11110 := by decide
/-- V10: R15 reads as the incremented PC; written, it is the next PC. -/
theorem test_mov_pc : regAfter 0x61F0 [(.pc, 4)] .r1 = some 5 ∧ regAfter 0x6F10 [(.pc, 4), (.r1, 0x40)] .pc = some 0x40 := by
  decide
/-- V6: the value of NOT; C and O are free, so RS is left out. -/
theorem test_not : regAfter 0x7380 [(.acc, 0x0030)] .r3 = some 0xFFCF := by decide
theorem test_not_ignores_low_bits : regAfter 0x738A [(.acc, 0x7FFF), (.r2, 0x1111)] .r3 = some 0x8000 := by decide
/-- V3: N is not written by OR, AND, XOR. -/
theorem test_or : regAfter 0x8321 [(.r1, 0x8000), (.r2, 0x8000)] .r3 = some 0x8000 ∧
    regAfter 0x8321 [(.r1, 0x8000), (.r2, 0x8000)] .rs = some 0b10000 := by decide
theorem test_and : regAfter 0x9321 [(.r1, 0xFF00), (.r2, 0x0FF0), (.rs, 0b01110)] .r3 = some 0x0F00 ∧
    regAfter 0x9321 [(.r1, 0xFF00), (.r2, 0x0FF0), (.rs, 0b01110)] .rs = some 0b01110 := by decide
theorem test_xor : regAfter 0xA321 [(.r1, 0x8000), (.r2, 0x8000), (.rs, 0b01110)] .r3 = some 0 ∧
    regAfter 0xA321 [(.r1, 0x8000), (.r2, 0x8000), (.rs, 0b01110)] .rs = some 0b01111 := by decide
/-- V7: left by 15 and a logical right shift. -/
theorem test_shift_left : regAfter 0xB02F [(.r2, 3), (.rs, 0b01100)] .acc = some 0x8000 ∧
    regAfter 0xB02F [(.r2, 3), (.rs, 0b01100)] .rs = some 0b11110 := by decide
theorem test_shift_right : regAfter 0xB138 [(.r3, 0xFFCF), (.rs, 0b01100)] .acc = some 0x00FF ∧
    regAfter 0xB138 [(.r3, 0xFFCF), (.rs, 0b01100)] .rs = some 0b01100 := by decide
/-- V8: mask 000011 is taken on Z or N; mask 000000 never. -/
theorem test_jump : regAfter 0xC003 [(.rj, 0xF123), (.rs, 0b00010)] .pc = some 0xF123 ∧
    regAfter 0xC003 [(.rj, 0xF123), (.rs, 0b11100)] .pc = some 1 := by decide
theorem test_jump_empty_mask : regAfter 0xC000 [(.rj, 0x0123), (.rs, 0b11111)] .pc = some 1 ∧
    regAfter 0xC020 [(.rj, 0x0123)] .pc = some 0x0123 := by decide
/-- V9: the device gives 0x8000 at port 0xFFF; another port's word stays queued. -/
theorem test_in : (nextOf (step { running 0xDFFF [(.rs, 0b01100)] with ioAnswers := [⟨0x010, 7⟩, ⟨0xFFF, 0x8000⟩] })).map
    (fun t => (t.reg .acc, t.reg .rs, t.ioAnswers)) = some (0x8000, 0b11110, [⟨0x010, 7⟩]) := by decide
/-- V9: OUT 0x011. -/
theorem test_out : (nextOf (step (running 0xE011 [(.acc, 0x00FF), (.rs, 0b01100)]))).map
    (fun t => (t.ioEvents, t.reg .rs)) = some ([⟨0x011, 0x00FF⟩], 0b01100) := by decide
/-- V9: HALT, and PC after it. -/
theorem test_halt : (nextOf (step (running 0xFFFF []))).map (fun t => (t.halted, t.reg .pc)) = some (true, 1) := by decide
/-- V10: RC = 2, PC = 0xFFFF fetches from 0x0002FFF and wraps to 0x0002000. -/
theorem test_fetch_wraps : (withRegs [(.rc, 2), (.pc, 0xFFFF)]).fetchAddress = 0x0002FFF ∧
    (withRegs [(.rc, 2), (.pc, 0xFFFF)]).advancePc.fetchAddress = 0x0002000 := by decide
/-- R91, R54: a byte written back to 0 is unlisted again. -/
theorem test_memory_canonical : ((Memory.writeWord [] 5 0x1234).writeWord 5 0x0034) = [(10, 0x34)] := by decide
/-- An image of two words (R142). -/
theorem test_load_image : (State.reset.loadImage 0 [0x2100, 0x6180]).mem.readWord 1 = 0x6180 := by decide

/-! Witnesses: states and operands that meet the hypotheses of the statements -/

theorem witness_DirectAddressField : (0x2FFF : Word).extractLsb' 12 4 = 2 ∧ (0x3102 : Word).extractLsb' 12 4 = 3 ∧
    (0xD010 : Word).extractLsb' 12 4 = 13 ∧ (0xE011 : Word).extractLsb' 12 4 = 14 := by decide

theorem witness_ThreeAddressFields : (0x4321 : Word).extractLsb' 12 4 = 4 ∧ (0x5321 : Word).extractLsb' 12 4 = 5 ∧
    (0x8321 : Word).extractLsb' 12 4 = 8 ∧ (0x9321 : Word).extractLsb' 12 4 = 9 ∧ (0xA321 : Word).extractLsb' 12 4 = 10 ∧
    Reg.r3 ≠ .rs := by decide

theorem witness_TwoAddressFields : (0x6180 : Word).extractLsb' 12 4 = 6 ∧ (0x7380 : Word).extractLsb' 12 4 = 7 := by decide

theorem witness_ImmediateFields : (0x1E34 : Word).extractLsb' 12 4 = 1 ∧ (0x1E34 : Word).getLsbD 8 = false ∧
    (0x1F12 : Word).extractLsb' 12 4 = 1 ∧ (0x1F12 : Word).getLsbD 8 = true := by decide

theorem witness_ShiftJumpAndEmptyFields : (0xBE2F : Word).extractLsb' 12 4 = 11 ∧ (0xCFC1 : Word).extractLsb' 12 4 = 12 ∧
    (0x0ABC : Word).extractLsb' 12 4 = 0 ∧ (0xFFFF : Word).extractLsb' 12 4 = 15 := by decide

theorem witness_IgnoredBitsDoNotMatter :
    ((0x0ABC : Word) &&& 0xF000 = 0x0000 &&& 0xF000) ∧ ((0x1E34 : Word) &&& 0xF1FF = 0x1034 &&& 0xF1FF) ∧
    ((0x618F : Word) &&& 0xFFF0 = 0x6180 &&& 0xFFF0) ∧ ((0x738A : Word) &&& 0xFFF0 = 0x7380 &&& 0xFFF0) ∧
    ((0xBE2F : Word) &&& 0xF1FF = 0xB02F &&& 0xF1FF) ∧ ((0xCFC1 : Word) &&& 0xF03F = 0xC001 &&& 0xF03F) ∧
    ((0xFFFF : Word) &&& 0xF000 = 0xF000 &&& 0xF000) := by decide

/-- The round trip's hypothesis, at both ends of the count's range. -/
theorem witness_DecodeEncodeRoundTrip : (Instr.shift .right .r3 15).WellFormed ∧ (Instr.shift .left .r3 0).WellFormed ∧
    Instr.halt.WellFormed := by decide

theorem witness_StepRunsDecodedInstruction :
    let s := running 0x4321 [(.rc, 2), (.pc, 0x1FFF)]
    s.halted = false ∧ (0x0002FFF : WordAddr).toNat = (s.reg .rc).toNat * 4096 + (s.reg .pc).toNat % 4096 ∧
    s.kindAt 0x0002FFF ≠ .absent ∧
    decode [s.mem.readByte (byteAddr 0x0002FFF), s.mem.readByte (byteAddr 0x0002FFF + 1)] = .ok (.add .r3 .r1 .r2, []) ∧
    (Instr.add .r3 .r1 .r2).WellFormed := by decide

theorem witness_HaltedMachineStays : State.reset.halt.halted = true := by decide

theorem witness_FetchFromAbsentWordStops :
    (onPlatform [⟨0, 1, .absent⟩] .dropped).halted = false ∧
    (onPlatform [⟨0, 1, .absent⟩] .dropped).kindAt (onPlatform [⟨0, 1, .absent⟩] .dropped).fetchAddress = .absent := by decide

theorem witness_PlacedWordRunsNext : State.reset.kindAt State.reset.fetchAddress ≠ .absent := by decide

theorem witness_LoadFillsAccumulator :
    (0xFFFFFFF : WordAddr).toNat = ((withRegs [(.rd, 0xFFFF)]).reg .rd).toNat * 4096 + (0xFFF : Offset).toNat ∧
    (withRegs [(.rd, 0xFFFF)]).kindAt 0xFFFFFFF ≠ .absent := by decide

theorem witness_StoreWritesOneWord : State.reset.kindAt (State.reset.dataAddress 0xFFF) = .readWrite := by decide

theorem witness_StoreToReadOnlyIsDropped :
    (onPlatform [⟨0, 1, .readOnly⟩] .dropped).kindAt ((onPlatform [⟨0, 1, .readOnly⟩] .dropped).dataAddress 0) = .readOnly ∧
    (onPlatform [⟨0, 1, .readOnly⟩] .dropped).params.romStore = .dropped := by decide

/-- Both clauses, at the last word of a region, and past it neither. -/
theorem witness_AccessesThatStop :
    (onPlatform [⟨0, 4, .absent⟩] .dropped).kindAt ((onPlatform [⟨0, 4, .absent⟩] .dropped).dataAddress 3) = .absent ∧
    (onPlatform [⟨0, 4, .readOnly⟩] .faults).kindAt ((onPlatform [⟨0, 4, .readOnly⟩] .faults).dataAddress 3) = .readOnly ∧
    (onPlatform [⟨0, 4, .readOnly⟩] .faults).params.romStore = .faults ∧
    (onPlatform [⟨0, 4, .absent⟩] .dropped).kindAt 4 = .readWrite := by decide

theorem witness_SubComputesDifference :
    ({ State.reset with params := { Params.default with subCarry := .carryOut } } : State).params.subCarry = .carryOut ∧
    ({ State.reset with params := { Params.default with subCarry := .borrow } } : State).params.subCarry = .borrow := by decide

theorem witness_LogicComputesBitwise : (0x8321 : Word).extractLsb' 12 4 = 8 ∧ (0x9321 : Word).extractLsb' 12 4 = 9 ∧
    (0xA321 : Word).extractLsb' 12 4 = 10 := by decide

theorem witness_MovCopies : (0x6180 : Word).extractLsb' 12 4 = 6 := by decide

theorem witness_ShiftMovesBits : State.reset.params.shiftFlags = .znp := by decide

/-- Taken by J, taken by a selected flag, not taken with a flag selected that is 0. -/
theorem witness_JumpGoesToRj :
    (0b100000 : BitVec 6).getLsbD 5 = true ∧
    ((0b010000 : BitVec 6).getLsbD Machine.Flag.p.bit = true ∧ (withRegs [(.rs, 0b10000)]).flag .p = true) ∧
    ((0b000001 : BitVec 6).getLsbD 5 = false ∧ (withRegs [(.rs, 0b11110)]).flag .z = false) := by decide

/-- The last port of the space, behind a word for another port; and a port with nothing queued. -/
theorem witness_InFillsAccumulator :
    ({ State.reset with ioAnswers := [⟨0x010, 7⟩, ⟨0xFFF, 9⟩] } : State).ioAnswers =
      [⟨0x010, 7⟩] ++ (⟨0xFFF, 9⟩ : IoAnswer) :: [] ∧
    (∀ x ∈ ([⟨0x010, 7⟩] : List IoAnswer), x.port ≠ 0xFFF) ∧ ∀ x ∈ State.reset.ioAnswers, x.port ≠ 0x010 := by decide

/-- A storing step from a state of the canonical form that is not the reset state. -/
theorem witness_StepKeepsMemoryForm :
    (running 0x3102 [(.rd, 1), (.acc, 0x2224)]).Inv ∧ ∃ t, step (running 0x3102 [(.rd, 1), (.acc, 0x2224)]) = .next t :=
  ⟨rfl, _, rfl⟩

/-- Two memories built in different orders. -/
theorem witness_CanonicalMemoriesAreEqual :
    ((Memory.writeByte [] 3 7).writeByte 1 9).wf = true ∧ ((Memory.writeByte [] 1 9).writeByte 3 7).wf = true ∧
    ∀ a, ((Memory.writeByte [] 3 7).writeByte 1 9).readByte a = ((Memory.writeByte [] 1 9).writeByte 3 7).readByte a :=
  ⟨by decide, by decide, fun _ => rfl⟩

/-- A platform with a read-only word whose stores are dropped backs everything. -/
theorem witness_fullyBacked : (onPlatform [⟨0, 1, .readOnly⟩] .dropped).fullyBacked := by
  intro a
  refine ⟨?_, fun _ => rfl⟩
  simp only [State.kindAt, onPlatform, kindAt, List.find?]
  cases Region.holds ⟨0, 1, .readOnly⟩ a <;> simp

/-- For OnlyDestinationsChange, OnlyListedFlagsChange, OnlyStoreChangesMemory (a word that is no STORE), ProgramCounterSequence and
OnlyHaltHalts: an ADD that runs. -/
theorem witness_running_step :
    let s := running 0x4321 [(.r1, 0x7FFF), (.r2, 1)]
    s.halted = false ∧ s.params.shiftFlags = .znp ∧ (∃ t, step s = .next t) ∧
    Reg.rs ∉ destinations (decodeWord (s.mem.readWord s.fetchAddress)) ∧
    Reg.pc ∉ destinations (decodeWord (s.mem.readWord s.fetchAddress)) ∧
    Reg.rj ∉ Reg.pc :: .rs :: destinations (decodeWord (s.mem.readWord s.fetchAddress)) ∧
    ∀ a, decodeWord (s.mem.readWord s.fetchAddress) ≠ .store a :=
  ⟨rfl, rfl, ⟨_, rfl⟩, by decide, by decide, by decide, fun _ h => Instr.noConfusion h⟩

/-- For OnlyStoreChangesMemory, a STORE that runs. -/
theorem witness_storing_step :
    let s := running 0x3102 [(.rd, 1), (.acc, 0x2224)]
    s.halted = false ∧ (∃ t, step s = .next t) ∧ decodeWord (s.mem.readWord s.fetchAddress) = .store 0x102 :=
  ⟨rfl, ⟨_, rfl⟩, by decide⟩

/-- A STORE, then a LOAD of its word and a LOAD of another. -/
theorem witness_LoadReadsLastStore :
    let s := withRegs [(.rd, 1), (.acc, 0x2224)]
    s.kindAt (s.dataAddress 0x102) = .readWrite ∧ ∃ t u v, exec (.store 0x102) s = .next t ∧
      exec (.load 0x102) t = .next u ∧ exec (.load 0x103) t = .next v :=
  ⟨by decide, _, _, _, rfl, rfl, rfl⟩

theorem witness_StoreSeenByNextFetch :
    let s := withRegs [(.pc, 1), (.acc, 0xF000)]
    s.halted = false ∧ s.kindAt s.fetchAddress = .readWrite ∧ s.dataAddress 0x001 = s.fetchAddress := by decide

theorem witness_PortsIgnorePageRegisters :
    (∃ t, exec (.inPort 0x010) State.reset = .next t) ∧ ∃ t, exec (.outPort 0x010) State.reset = .next t :=
  ⟨⟨_, rfl⟩, ⟨_, rfl⟩⟩

end Sys2Proof.Tests
end

section
/-! PROOFS. The two-address format R2 (spec/30_encoding.md R65): what the decoder gives for the operation codes of MOV and NOT. -/

namespace Sys2Proof.Laws.TwoAddress

variable {w : Word}

theorem decodeWord_of_cop_mov (hcop : copField w = 6) : decodeWord w = .mov (r3Field w) (r2Field w) := by
  simp [decodeWord, hcop]

theorem decodeWord_of_cop_not (hcop : copField w = 7) : decodeWord w = .notReg (r3Field w) (r2Field w) := by
  simp [decodeWord, hcop]

/-- Settles O5, one operation code at a time: the fields `r3Field` and `r2Field` are I[11:8] and I[7:4] by definition, so neither
side reads I[3:0]. -/
theorem twoAddressFields : Obligations.TwoAddressFields := fun _ =>
  ⟨decodeWord_of_cop_mov, decodeWord_of_cop_not⟩

end Sys2Proof.Laws.TwoAddress
end

section
/-! PROOFS. The register file (spec/10_state.md R10) and the parity bit (R19): the two obligations about one operation of the
state. -/

namespace Sys2Proof.Laws.RegisterFile

open Sys2Proof.Machine

theorem bits_ofBits (b : BitVec 4) : (Reg.ofBits b).bits = b := by
  revert b; decide

theorem ofBits_bits (r : Reg) : Reg.ofBits r.bits = r := by
  cases r <;> rfl

/-- Settles O1: the numbering is a bijection, and reading after writing is the register file's own law. -/
theorem registerFileReadAfterWrite : Obligations.RegisterFileReadAfterWrite :=
  ⟨bits_ofBits, ofBits_bits, fun s d r v => State.reg_setReg s r d v⟩

end Sys2Proof.Laws.RegisterFile

namespace Sys2Proof.Laws.Parity

open Sys2Proof.Machine

/-- A running exclusive or starts at `b` and turns over once for each element that satisfies `f`. -/
theorem foldl_xor_eq_odd_countP {α : Type} (f : α → Bool) (l : List α) (b : Bool) :
    l.foldl (fun p k => p ^^ f k) b = (b ^^ decide (l.countP f % 2 = 1)) := by
  induction l generalizing b with
  | nil => simp
  | cons k l ih =>
    rw [List.foldl_cons, ih, List.countP_cons]
    cases f k with
    | false => simp
    | true =>
      have turn : decide ((l.countP f + 1) % 2 = 1) = !decide (l.countP f % 2 = 1) := by
        rw [← decide_not, decide_eq_decide]
        omega
      simp [turn]

/-- R19: the exclusive or of the sixteen bits says whether the number of 1 bits is odd. -/
theorem parity_eq_oddOnes (v : Word) : parity v = oddOnes v := by
  rw [parity, foldl_xor_eq_odd_countP, Bool.false_xor, oddOnes, onesIn]

/-- P of RS after a status update that gives P. -/
theorem flag_p_of_statusAfter {before : Word} {t : State} {z n c o : Option Bool} {p : Bool}
    (h : StatusAfter before (t.reg .rs) z n c o (some p)) : t.flag .p = p := by
  obtain ⟨-, -, -, -, hp, -⟩ := h
  exact hp

/-- Settles O49: each helper gives P the parity of the result, and parity counts the 1 bits. -/
theorem parityCountsOnes : Obligations.ParityCountsOnes := by
  intro s v c o
  rw [← parity_eq_oddOnes]
  exact ⟨flag_p_of_statusAfter (s.setZP_status v), flag_p_of_statusAfter (s.setZNP_status v),
    flag_p_of_statusAfter (s.setZNCOP_status v c o)⟩

end Sys2Proof.Laws.Parity
end

section
/-! PROOFS. The fetch address as a number (spec/20_memory.md R41, R43), and what a MOV to PC or RC does to it. -/

namespace Sys2Proof.Laws.NextFetch

open Sys2Proof.Machine

/-- R41: page number ++ offset, as a number. -/
theorem addr28_toNat (page : Word) (offset : Offset) :
    (addr28 page offset).toNat = page.toNat * 4096 + offset.toNat := by
  have hoff : offset.toNat < 2 ^ 12 := offset.isLt
  rw [addr28, BitVec.toNat_append, ← Nat.shiftLeft_add_eq_or_of_lt hoff, Nat.shiftLeft_eq]

/-- R43: RC ++ PC[11:0], as a number. -/
theorem fetchAddress_toNat (s : State) :
    s.fetchAddress.toNat = (s.reg .rc).toNat * 4096 + (s.reg .pc).toNat % 4096 := by
  rw [State.fetchAddress, addr28_toNat, BitVec.extractLsb'_toNat, Nat.shiftRight_zero]

/-- MOV (R105) completes with the value written and the status bits set after it. -/
theorem exec_mov (dst src : Reg) (s : State) :
    exec (.mov dst src) s = .next ((s.setReg dst (s.reg src)).setZNP (s.reg src)) := rfl

/-- Settles O47: the fetch address after the MOV is read off RC and PC, of which the MOV has replaced one and its status bits
touch neither. -/
theorem pcAndRcSteerNextFetch : Obligations.PcAndRcSteerNextFetch := by
  intro r s
  refine ⟨⟨_, exec_mov .pc r s, ?_⟩, _, exec_mov .rc r s, ?_⟩
  · simp [fetchAddress_toNat, State.reg_setZNP_of_ne]
  · simp [fetchAddress_toNat, State.reg_setZNP_of_ne]

end Sys2Proof.Laws.NextFetch
end

section
/-! PROOFS. What one instruction and one step can change in the registers: PC, the destinations of R36, and in RS the status
bits of R20. `WritesOnly` says so of two states; each operation of the model has one rule for it, and the obligations about
registers and about status bits are its two parts. -/

namespace Sys2Proof.Laws.RegisterFrame

open Sys2Proof.Machine

/-- From `s` to `t` no register outside `ds` changed but RS, and where `ds` does not name RS, no bit of RS changed but the
status bits `fs`. -/
structure WritesOnly (ds : List Reg) (fs : List Flag) (s t : State) : Prop where
  regs : SameRegsBut (.rs :: ds) s t
  status : .rs ∉ ds → ∀ k, (∀ f ∈ fs, k ≠ f.bit) → (t.reg .rs).getLsbD k = (s.reg .rs).getLsbD k

/-! One rule per operation of the state -/

section Rules
variable {ds : List Reg} {fs : List Flag} {s t u : State}

theorem WritesOnly.refl : WritesOnly ds fs s s where
  regs _ _ := rfl
  status _ _ _ := rfl

theorem WritesOnly.trans (h : WritesOnly ds fs s t) (h' : WritesOnly ds fs t u) : WritesOnly ds fs s u where
  regs r hr := (h'.regs r hr).trans (h.regs r hr)
  status hrs k hk := (h'.status hrs k hk).trans (h.status hrs k hk)

theorem WritesOnly.of_regs_eq (h : t.regs = s.regs) : WritesOnly ds fs s t where
  regs r _ := by rw [State.reg, h, State.reg]
  status _ k _ := by rw [State.reg, h, State.reg]

theorem WritesOnly.setReg {d : Reg} (hd : d ∈ ds) (v : Word) : WritesOnly ds fs s (s.setReg d v) where
  regs r hr := by
    have hne : r ≠ d := fun e => hr (by simp [e, hd])
    simp [hne]
  status hrs k _ := by
    have hne : .rs ≠ d := fun e => hrs (e ▸ hd)
    simp [hne]

theorem WritesOnly.advancePc (hpc : .pc ∈ ds) : WritesOnly ds fs s s.advancePc := setReg hpc _

theorem WritesOnly.jumpTo (hpc : .pc ∈ ds) (target : Word) : WritesOnly ds fs s (s.jumpTo target) := setReg hpc target

theorem WritesOnly.setFlag {f : Flag} (hf : f ∈ fs) (b : Bool) : WritesOnly ds fs s (s.setFlag f b) where
  regs r hr := by
    have hne : r ≠ .rs := fun e => hr (by simp [e])
    simp [hne]
  status _ k hk := by rw [State.rs_setFlag_getLsbD, if_neg (hk f hf)]

theorem WritesOnly.setZP (v : Word) : WritesOnly ds [.z, .p] s (s.setZP v) :=
  (setFlag (by simp) _).trans (setFlag (by simp) _)

theorem WritesOnly.setZNP (v : Word) : WritesOnly ds [.z, .n, .p] s (s.setZNP v) :=
  ((setFlag (by simp) _).trans (setFlag (by simp) _)).trans (setFlag (by simp) _)

theorem WritesOnly.setZNCOP (v : Word) (c o : Bool) : WritesOnly ds [.z, .n, .c, .o, .p] s (s.setZNCOP v c o) :=
  ((((setFlag (by simp) _).trans (setFlag (by simp) _)).trans (setFlag (by simp) _)).trans
    (setFlag (by simp) _)).trans (setFlag (by simp) _)

/-- The result of an instruction that writes Z, N and P: its register, then the three bits. -/
theorem WritesOnly.setReg_setZNP {d : Reg} (hd : d ∈ ds) (v : Word) :
    WritesOnly ds [.z, .n, .p] s ((s.setReg d v).setZNP v) :=
  (setReg hd v).trans (setZNP v)

theorem WritesOnly.drawn (n : Nat) : WritesOnly ds fs s (s.drawn n) :=
  of_regs_eq (s.drawn_regs n)

theorem WritesOnly.ioWrite (port : Port) (v : Word) : WritesOnly ds fs s (s.ioWrite port v) :=
  of_regs_eq (s.ioWrite_regs port v)

theorem WritesOnly.storeWord {a : WordAddr} {v : Word} (h : s.storeWord a v = .ok t) : WritesOnly ds fs s t := by
  rcases s.storeWord_cases a v with ⟨-, written⟩ | ⟨-, -, dropped⟩ | ⟨-, -, fault⟩ | ⟨-, fault⟩
  · cases written.symm.trans h; exact of_regs_eq rfl
  · cases dropped.symm.trans h; exact .refl
  · cases fault.symm.trans h
  · cases fault.symm.trans h

theorem WritesOnly.ioRead (port : Port) : WritesOnly ds fs s (s.ioRead port).2 :=
  of_regs_eq (s.ioRead_frame port).1

theorem WritesOnly.subCarry (a b : Word) : WritesOnly ds fs s (s.subCarry a b).2 := by
  obtain ⟨n, e⟩ := s.subCarry_frame a b
  rw [e]
  exact drawn n

end Rules

/-! Instructions and steps -/

/-- The status bits an instruction can write under a value of SHIFT_FLAGS: the row of R20, and all five for a SHIFT on a machine
that leaves them free (R108, D17). -/
def flagsUnder (sf : ShiftFlags) : Instr → List Flag
  | .shift ind src np => if sf = .any then [.z, .n, .c, .o, .p] else flagsWritten (.shift ind src np)
  | i => flagsWritten i

theorem flagsUnder_znp (i : Instr) : flagsUnder .znp i = flagsWritten i := by
  cases i <;> rfl

/-- The status update of SHIFT; `ind` and `src` only name the instruction, whose row does not depend on them. -/
theorem WritesOnly.setShiftFlags {ds : List Reg} {s : State} {sf : ShiftFlags} (hsf : s.params.shiftFlags = sf)
    (ind : Direction) (src : Reg) (r v : Word) (np : Nat) :
    WritesOnly ds (flagsUnder sf (.shift ind src np)) s (s.setShiftFlags r v np) := by
  rw [State.setShiftFlags, hsf]
  cases sf with
  | znp => exact setZNP r
  | any =>
    have all : ∀ f, f ∈ flagsUnder .any (.shift ind src np) := by
      intro f
      cases f <;> simp [flagsUnder]
    exact (((((setFlag (all .z) _).trans (setFlag (all .n) _)).trans (setFlag (all .c) _)).trans
      (setFlag (all .o) _)).trans (setFlag (all .p) _)).trans (drawn 5)

theorem mem_pc_dst (d : Reg) : d ∈ [Reg.pc, d] := by simp

theorem logicResult_writesOnly {d : Reg} {r : Word} {s t : State} (h : logicResult d r s = .next t) :
    WritesOnly [.pc, d] [.z, .p] s t := by
  cases h
  exact (WritesOnly.setReg (mem_pc_dst d) r).trans (.setZP r)

theorem execJump_writesOnly {maska : BitVec 6} {fs : List Flag} {s t : State} (h : execJump maska s = .next t) :
    WritesOnly [.pc] fs s t := by
  unfold execJump at h
  split at h
  · cases h; exact .jumpTo List.mem_cons_self _
  · cases h; exact .refl

/-- One instruction writes PC, its destinations and the status bits of its row, and nothing else among the registers. -/
theorem exec_writesOnly {i : Instr} {s t : State} (h : exec i s = .next t) :
    WritesOnly (.pc :: destinations i) (flagsUnder s.params.shiftFlags i) s t := by
  cases i with
  | nop => cases h; exact .refl
  | halt => cases h; exact .of_regs_eq s.halt_regs
  | jump maska => exact execJump_writesOnly h
  | li lb podatak => cases h; exact .setReg_setZNP (mem_pc_dst .acc) _
  | mov dst src => cases h; exact .setReg_setZNP (mem_pc_dst dst) _
  | load adresa =>
    obtain ⟨v, -, hv⟩ := orFault_next h
    cases hv
    exact .setReg_setZNP (mem_pc_dst .acc) v
  | store adresa =>
    obtain ⟨u, hu, ht⟩ := orFault_next h
    cases ht
    exact (WritesOnly.storeWord hu).trans (.setZNP _)
  | inPort adresa =>
    cases (execIn_eq adresa s).symm.trans h
    exact (WritesOnly.ioRead adresa).trans (.setReg_setZNP (mem_pc_dst .acc) _)
  | outPort adresa =>
    cases h
    exact (WritesOnly.ioWrite adresa _).trans (.setZNP _)
  | add dst fst snd =>
    cases h
    exact (WritesOnly.setReg (mem_pc_dst dst) _).trans (.setZNCOP _ _ _)
  | sub dst fst snd =>
    cases (execSub_eq dst fst snd s).symm.trans h
    exact ((WritesOnly.subCarry _ _).trans (.setReg (mem_pc_dst dst) _)).trans (.setZNCOP _ _ _)
  | notReg dst src =>
    cases h
    exact ((WritesOnly.setReg (mem_pc_dst dst) _).trans (.setZNCOP _ _ _)).trans (.drawn 2)
  | orReg dst fst snd => exact logicResult_writesOnly h
  | andReg dst fst snd => exact logicResult_writesOnly h
  | xorReg dst fst snd => exact logicResult_writesOnly h
  | shift ind src np =>
    cases h
    have hparams := congrArg Params.shiftFlags (s.setReg_params .acc (shiftWord ind (s.reg src) np))
    exact (WritesOnly.setReg (mem_pc_dst .acc) _).trans (.setShiftFlags hparams ind src _ _ np)

/-- One step of a running machine writes PC, the destinations of the instruction fetched and the status bits of its row. -/
theorem step_writesOnly {s t : State} (hr : s.halted = false) (h : step s = .next t) :
    WritesOnly (.pc :: destinations (decodeWord (s.mem.readWord s.fetchAddress)))
      (flagsUnder s.params.shiftFlags (decodeWord (s.mem.readWord s.fetchAddress))) s t := by
  rcases step_next h with ⟨hh, -⟩ | ⟨-, -, hx⟩
  · rw [hr] at hh
    cases hh
  · exact (WritesOnly.advancePc List.mem_cons_self).trans (exec_writesOnly hx)

/-- Settles O40: the register part of what a step can write. -/
theorem onlyDestinationsChange : Obligations.OnlyDestinationsChange := by
  intro s t hr h r hnot
  refine (step_writesOnly hr h).regs r fun hmem => hnot ?_
  simpa [or_left_comm] using hmem

theorem flag_bit_injective : ∀ {f g : Flag}, f.bit = g.bit → f = g := by
  intro f g
  cases f <;> cases g <;> decide

theorem flag_bit_lt_five (f : Flag) : f.bit < 5 := by
  cases f <;> decide

/-- Settles O41: the status part of what a step can write, at the place of a status bit that is not listed and at the places
5 to 15, where no status bit stands. -/
theorem onlyListedFlagsChange : Obligations.OnlyListedFlagsChange := by
  intro s t hr hznp h hrs
  have hw := step_writesOnly hr h
  rw [hznp, flagsUnder_znp] at hw
  have kept := hw.status (by simpa using hrs)
  refine ⟨fun f hf => kept f.bit fun g hg e => hf (flag_bit_injective e ▸ hg), fun k hk => kept k fun g _ => ?_⟩
  have := flag_bit_lt_five g
  omega

end Sys2Proof.Laws.RegisterFrame
end

section
/-! PROOFS. Memory addresses (spec/20_memory.md R41) as page and offset, and what one instruction and one step can change in
memory (R48, R49): the word a STORE names, and nothing else. -/

namespace Sys2Proof.Laws.MemoryFrame

open Sys2Proof.Machine

/-- Settles O18: the address is the two bit strings joined, so each is read back from its own place. -/
theorem addressIsConcatenation : Obligations.AddressIsConcatenation := fun page offset =>
  ⟨NextFetch.addr28_toNat page offset, BitVec.extractLsb'_append_eq_left, BitVec.extractLsb'_append_eq_right⟩

variable {s t : State}

theorem dataAddress_advancePc (s : State) (adresa : Offset) :
    s.advancePc.dataAddress adresa = addr28 (s.reg .rd) adresa := by
  simp [State.dataAddress]

/-- A word written under MEM_MAP, or dropped there, leaves every other word alone (R49). -/
theorem storeWord_sameMemoryBut {w : WordAddr} {v : Word} (h : s.storeWord w v = .ok t) : SameMemoryBut w s t := by
  intro b hlow hhigh
  rcases s.storeWord_cases w v with ⟨-, written⟩ | ⟨-, -, dropped⟩ | ⟨-, -, fault⟩ | ⟨-, fault⟩
  · cases written.symm.trans h
    rw [Memory.readByte_writeWord, if_neg hhigh, if_neg hlow]
  · cases dropped.symm.trans h; rfl
  · cases fault.symm.trans h
  · cases fault.symm.trans h

/-- STORE changes memory at its data address only: its status update leaves memory alone. -/
theorem exec_store_sameMemoryBut {adresa : Offset} (h : exec (.store adresa) s = .next t) :
    SameMemoryBut (s.dataAddress adresa) s t := by
  obtain ⟨u, hu, ht⟩ := orFault_next h
  cases ht
  simpa [SameMemoryBut] using storeWord_sameMemoryBut hu

theorem execJump_mem {maska : BitVec 6} (h : execJump maska s = .next t) : t.mem = s.mem := by
  unfold execJump at h
  split at h
  · cases h; exact s.jumpTo_mem _
  · cases h; rfl

/-- Every instruction but STORE keeps memory as it is: only `State.storeWord` writes there. -/
theorem exec_mem {i : Instr} (hi : ∀ adresa, i ≠ .store adresa) (h : exec i s = .next t) : t.mem = s.mem := by
  cases i with
  | store adresa => exact absurd rfl (hi adresa)
  | jump maska => exact execJump_mem h
  | load adresa =>
    obtain ⟨v, -, hv⟩ := orFault_next h
    cases hv
    simp
  | inPort adresa =>
    cases (execIn_eq adresa s).symm.trans h
    simp [s.ioRead_frame adresa]
  | sub dst fst snd =>
    cases (execSub_eq dst fst snd s).symm.trans h
    obtain ⟨n, hn⟩ := s.subCarry_frame (s.reg fst) (s.reg snd)
    simp [hn]
  | shift ind src np =>
    cases h
    obtain ⟨-, hmem, -⟩ := State.setShiftFlags_frame (s.setReg .acc (shiftWord ind (s.reg src) np))
      (shiftWord ind (s.reg src) np) (s.reg src) np
    exact hmem
  | nop | halt => cases h; rfl
  | li | mov | notReg | add | orReg | andReg | xorReg | outPort => cases h; simp

/-- Settles O42: PC's increment changes neither memory nor RD, so the step changes what the instruction fetched does. -/
theorem onlyStoreChangesMemory : Obligations.OnlyStoreChangesMemory := by
  intro s t hr h
  rcases step_next h with ⟨hh, -⟩ | ⟨-, -, hx⟩
  · rw [hr] at hh
    cases hh
  · refine ⟨fun hno b => ?_, fun adresa hstore => ?_⟩
    · rw [exec_mem hno hx, State.advancePc_mem]
    · rw [hstore] at hx
      rw [← dataAddress_advancePc]
      simpa [SameMemoryBut] using exec_store_sameMemoryBut hx

end Sys2Proof.Laws.MemoryFrame
end

section
/-! PROOFS. The decoder's table (spec/30_encoding.md R61, R70): one equation per operation code, and the case split over the
sixteen codes. MOV and NOT have their equations in `Laws.TwoAddress`. -/

namespace Sys2Proof.Laws.DecoderTable

open Sys2Proof.Machine

/-- R70 has a row for each value of the four bits: a case split over I[15:12] has the sixteen rows as its cases. -/
theorem cop_cases {motive : BitVec 4 → Prop} (nop : motive 0) (li : motive 1) (load : motive 2) (store : motive 3)
    (add : motive 4) (sub : motive 5) (mov : motive 6) (notReg : motive 7) (orReg : motive 8) (andReg : motive 9)
    (xorReg : motive 10) (shift : motive 11) (jump : motive 12) (inPort : motive 13) (outPort : motive 14)
    (halt : motive 15) (cop : BitVec 4) : motive cop := by
  obtain ⟨row⟩ := cop
  fin_cases row <;> assumption

section Rows
variable {w : Word}

theorem decodeWord_of_cop_nop (hcop : copField w = 0) : decodeWord w = .nop := by
  simp [decodeWord, hcop]

theorem decodeWord_of_cop_li (hcop : copField w = 1) :
    decodeWord w = .li (.ofBit (w.extractLsb' 8 1)) (w.extractLsb' 0 8) := by
  simp [decodeWord, hcop]

theorem decodeWord_of_cop_load (hcop : copField w = 2) : decodeWord w = .load (adresaField w) := by
  simp [decodeWord, hcop]

theorem decodeWord_of_cop_store (hcop : copField w = 3) : decodeWord w = .store (adresaField w) := by
  simp [decodeWord, hcop]

theorem decodeWord_of_cop_add (hcop : copField w = 4) : decodeWord w = .add (r3Field w) (r1Field w) (r2Field w) := by
  simp [decodeWord, hcop]

theorem decodeWord_of_cop_sub (hcop : copField w = 5) : decodeWord w = .sub (r3Field w) (r1Field w) (r2Field w) := by
  simp [decodeWord, hcop]

theorem decodeWord_of_cop_or (hcop : copField w = 8) : decodeWord w = .orReg (r3Field w) (r1Field w) (r2Field w) := by
  simp [decodeWord, hcop]

theorem decodeWord_of_cop_and (hcop : copField w = 9) : decodeWord w = .andReg (r3Field w) (r1Field w) (r2Field w) := by
  simp [decodeWord, hcop]

theorem decodeWord_of_cop_xor (hcop : copField w = 10) : decodeWord w = .xorReg (r3Field w) (r1Field w) (r2Field w) := by
  simp [decodeWord, hcop]

theorem decodeWord_of_cop_shift (hcop : copField w = 11) :
    decodeWord w = .shift (.ofBit (w.extractLsb' 8 1)) (r2Field w) (w.extractLsb' 0 4).toNat := by
  simp [decodeWord, hcop]

theorem decodeWord_of_cop_jump (hcop : copField w = 12) : decodeWord w = .jump (w.extractLsb' 0 6) := by
  simp [decodeWord, hcop]

theorem decodeWord_of_cop_in (hcop : copField w = 13) : decodeWord w = .inPort (adresaField w) := by
  simp [decodeWord, hcop]

theorem decodeWord_of_cop_out (hcop : copField w = 14) : decodeWord w = .outPort (adresaField w) := by
  simp [decodeWord, hcop]

theorem decodeWord_of_cop_halt (hcop : copField w = 15) : decodeWord w = .halt := by
  simp [decodeWord, hcop]

end Rows

/-- Settles O3, one row of the table at a time: `adresaField` is I[11:0] by definition. -/
theorem directAddressField : Obligations.DirectAddressField := fun _ =>
  ⟨decodeWord_of_cop_load, decodeWord_of_cop_store, decodeWord_of_cop_in, decodeWord_of_cop_out⟩

end Sys2Proof.Laws.DecoderTable
end

section
/-! PROOFS. The formats of spec/30_encoding.md R62 to R69 as bit strings joined: what each field of a joined word is, and how a
word is put together again from its fields, with 0 in the bits its format ignores. -/

namespace Sys2Proof.Laws.Formats

open Sys2Proof.Laws.RegisterFile

/-! The codes of one field and back -/

theorem byteSel_ofBit_bit (lb : ByteSel) : ByteSel.ofBit lb.bit = lb := by
  cases lb <;> rfl

theorem byteSel_bit_ofBit (b : BitVec 1) : (ByteSel.ofBit b).bit = b := by
  revert b; decide

theorem direction_ofBit_bit (ind : Direction) : Direction.ofBit ind.bit = ind := by
  cases ind <;> rfl

theorem direction_bit_ofBit (b : BitVec 1) : (Direction.ofBit b).bit = b := by
  revert b; decide

theorem bits_r3Field (w : Word) : (r3Field w).bits = w.extractLsb' 8 4 := bits_ofBits _

theorem bits_r2Field (w : Word) : (r2Field w).bits = w.extractLsb' 4 4 := bits_ofBits _

theorem bits_r1Field (w : Word) : (r1Field w).bits = w.extractLsb' 0 4 := bits_ofBits _

/-! The fields of a joined word -/

section Join
variable (cop : BitVec 4)

/-- A field that lies in the low twelve bits does not see COP. -/
theorem lowField_append {start len : Nat} (h : start + len ≤ 12) (low : BitVec 12) :
    BitVec.extractLsb' start len (cop ++ low) = low.extractLsb' start len :=
  BitVec.extractLsb'_append_eq_of_add_le h

theorem adresaField_append (adresa : BitVec 12) : adresaField (cop ++ adresa) = adresa :=
  BitVec.extractLsb'_append_eq_right

theorem r3Field_append (r : Reg) (low : BitVec 8) : r3Field (cop ++ (r.bits ++ low)) = r := by
  rw [r3Field, lowField_append _ (by decide), BitVec.extractLsb'_append_eq_left, ofBits_bits]

theorem r2Field_append (high : BitVec 4) (r : Reg) (low : BitVec 4) :
    r2Field (cop ++ (high ++ (r.bits ++ low))) = r := by
  rw [r2Field, lowField_append _ (by decide), BitVec.extractLsb'_append_eq_of_add_le (by decide),
    BitVec.extractLsb'_append_eq_left, ofBits_bits]

theorem r1Field_append (high mid : BitVec 4) (r : Reg) : r1Field (cop ++ (high ++ (mid ++ r.bits))) = r := by
  rw [r1Field, lowField_append _ (by decide), BitVec.extractLsb'_append_eq_of_add_le (by decide),
    BitVec.extractLsb'_append_eq_right, ofBits_bits]

/-- Formats I and S: the bit I[8] and the eight bits under it. -/
theorem bitField_append (unused : BitVec 3) (bit : BitVec 1) (low : BitVec 8) :
    BitVec.extractLsb' 8 1 (cop ++ (unused ++ (bit ++ low))) = bit := by
  rw [lowField_append _ (by decide), BitVec.extractLsb'_append_eq_of_add_le (by decide),
    BitVec.extractLsb'_append_eq_left]

theorem byteField_append (unused : BitVec 3) (bit : BitVec 1) {start len : Nat} (h : start + len ≤ 8)
    (low : BitVec 8) :
    BitVec.extractLsb' start len (cop ++ (unused ++ (bit ++ low))) = low.extractLsb' start len := by
  rw [lowField_append _ (by omega), BitVec.extractLsb'_append_eq_of_add_le (by omega),
    BitVec.extractLsb'_append_eq_of_add_le h]

end Join

/-! A word from its fields -/

section Split
variable {w : Word} {cop : BitVec 4}

theorem copField_append_adresaField (w : Word) : copField w ++ adresaField w = w :=
  BitVec.extractLsb'_append_extractLsb'

/-- A mask that keeps COP is applied to the low twelve bits. -/
theorem and_mask (hcop : copField w = cop) (mask : BitVec 12) :
    w &&& (0xF#4 ++ mask) = cop ++ (adresaField w &&& mask) := by
  calc w &&& (0xF#4 ++ mask)
      = (copField w ++ adresaField w) &&& (0xF#4 ++ mask) := by rw [copField_append_adresaField]
    _ = (copField w &&& 0xF#4) ++ (adresaField w &&& mask) := BitVec.and_append
    _ = cop ++ (adresaField w &&& mask) := by rw [hcop, show 0xF#4 = BitVec.allOnes 4 from rfl, BitVec.and_allOnes]

/-- Formats R3 and R2: the low twelve bits are three register numbers. -/
theorem adresaField_eq_nibbles (w : Word) :
    adresaField w = w.extractLsb' 8 4 ++ (w.extractLsb' 4 4 ++ w.extractLsb' 0 4) := by
  rw [BitVec.extractLsb'_append_extractLsb'_eq_extractLsb' (by rfl),
    BitVec.extractLsb'_append_extractLsb'_eq_extractLsb' (by rfl), adresaField]

/-- Formats I and S: three unused bits, I[8] and a byte. -/
theorem adresaField_eq_bit_byte (w : Word) :
    adresaField w = w.extractLsb' 9 3 ++ (w.extractLsb' 8 1 ++ w.extractLsb' 0 8) := by
  rw [BitVec.extractLsb'_append_extractLsb'_eq_extractLsb' (by rfl),
    BitVec.extractLsb'_append_extractLsb'_eq_extractLsb' (by rfl), adresaField]

/-- Format J: six unused bits and the mask. -/
theorem adresaField_eq_six_six (w : Word) : adresaField w = w.extractLsb' 6 6 ++ w.extractLsb' 0 6 := by
  rw [BitVec.extractLsb'_append_extractLsb'_eq_extractLsb' (by rfl), adresaField]

/-- Format S: the byte of format I holds the source and the count. -/
theorem byte_eq_nibbles (w : Word) : w.extractLsb' 0 8 = w.extractLsb' 4 4 ++ w.extractLsb' 0 4 := by
  rw [BitVec.extractLsb'_append_extractLsb'_eq_extractLsb' (by rfl)]

/-! The canonical word of each format (R74): the word's own fields in their places, and 0 elsewhere, is the word under the mask
of the bits its format uses. -/

theorem empty_word (hcop : copField w = cop) : cop ++ 0#12 = w &&& 0xF000 := by
  have h := and_mask hcop 0#12
  rw [BitVec.and_zero] at h
  exact h.symm

theorem address_word (hcop : copField w = cop) : cop ++ adresaField w = w &&& 0xFFFF := by
  have h := and_mask hcop (BitVec.allOnes 12)
  rw [BitVec.and_allOnes] at h
  exact h.symm

theorem threeAddress_word (hcop : copField w = cop) :
    cop ++ ((r3Field w).bits ++ ((r2Field w).bits ++ (r1Field w).bits)) = w &&& 0xFFFF := by
  rw [bits_r3Field, bits_r2Field, bits_r1Field, ← adresaField_eq_nibbles]
  exact address_word hcop

theorem twoAddress_word (hcop : copField w = cop) :
    cop ++ ((r3Field w).bits ++ ((r2Field w).bits ++ 0#4)) = w &&& 0xFFF0 := by
  have h := and_mask hcop (BitVec.allOnes 4 ++ (BitVec.allOnes 4 ++ 0#4))
  rw [adresaField_eq_nibbles, BitVec.and_append, BitVec.and_append, BitVec.and_allOnes, BitVec.and_allOnes,
    BitVec.and_zero, ← bits_r3Field, ← bits_r2Field] at h
  exact h.symm

theorem bit_byte_word (hcop : copField w = cop) :
    cop ++ (0#3 ++ (w.extractLsb' 8 1 ++ w.extractLsb' 0 8)) = w &&& 0xF1FF := by
  have h := and_mask hcop (0#3 ++ (BitVec.allOnes 1 ++ BitVec.allOnes 8))
  rw [adresaField_eq_bit_byte, BitVec.and_append, BitVec.and_append, BitVec.and_allOnes, BitVec.and_allOnes,
    BitVec.and_zero] at h
  exact h.symm

theorem jump_word (hcop : copField w = cop) : cop ++ (0#6 ++ w.extractLsb' 0 6) = w &&& 0xF03F := by
  have h := and_mask hcop (0#6 ++ BitVec.allOnes 6)
  rw [adresaField_eq_six_six, BitVec.and_append, BitVec.and_allOnes, BitVec.and_zero] at h
  exact h.symm

end Split

end Sys2Proof.Laws.Formats
end

section
/-! PROOFS. Decode and encode agree (spec/30_encoding.md R70 to R74), in both directions; and what follows from the second: the
operation code of the decoded instruction is I[15:12] (R61). -/

namespace Sys2Proof.Laws.RoundTrip

open Sys2Proof.Laws.DecoderTable Sys2Proof.Laws.TwoAddress Sys2Proof.Laws.Formats

/-- The canonical word of a well-formed instruction decodes to it: its operation code picks the row, and each field of the row
reads back the operand put there. Only SHIFT needs the hypothesis, for its count. -/
theorem decodeWord_encode {i : Instr} (hwf : i.WellFormed) : decodeWord (encode i) = i := by
  cases i with
  | nop => exact decodeWord_of_cop_nop EncodedOpcode.nop
  | halt => exact decodeWord_of_cop_halt EncodedOpcode.halt
  | load adresa => rw [decodeWord_of_cop_load (EncodedOpcode.load adresa), encode, adresaField_append]
  | store adresa => rw [decodeWord_of_cop_store (EncodedOpcode.store adresa), encode, adresaField_append]
  | inPort adresa => rw [decodeWord_of_cop_in (EncodedOpcode.inPort adresa), encode, adresaField_append]
  | outPort adresa => rw [decodeWord_of_cop_out (EncodedOpcode.outPort adresa), encode, adresaField_append]
  | add dst fst snd =>
    rw [decodeWord_of_cop_add (EncodedOpcode.add dst fst snd), encode, r3Field_append, r2Field_append, r1Field_append]
  | sub dst fst snd =>
    rw [decodeWord_of_cop_sub (EncodedOpcode.sub dst fst snd), encode, r3Field_append, r2Field_append, r1Field_append]
  | orReg dst fst snd =>
    rw [decodeWord_of_cop_or (EncodedOpcode.orReg dst fst snd), encode, r3Field_append, r2Field_append, r1Field_append]
  | andReg dst fst snd =>
    rw [decodeWord_of_cop_and (EncodedOpcode.andReg dst fst snd), encode, r3Field_append, r2Field_append, r1Field_append]
  | xorReg dst fst snd =>
    rw [decodeWord_of_cop_xor (EncodedOpcode.xorReg dst fst snd), encode, r3Field_append, r2Field_append, r1Field_append]
  | mov dst src => rw [decodeWord_of_cop_mov (EncodedOpcode.mov dst src), encode, r3Field_append, r2Field_append]
  | notReg dst src => rw [decodeWord_of_cop_not (EncodedOpcode.notReg dst src), encode, r3Field_append, r2Field_append]
  | li lb podatak =>
    rw [decodeWord_of_cop_li (EncodedOpcode.li lb podatak), encode, bitField_append, byteSel_ofBit_bit,
      byteField_append _ _ _ (by decide), BitVec.extractLsb'_eq_self]
  | jump maska =>
    rw [decodeWord_of_cop_jump (EncodedOpcode.jump maska), encode, lowField_append _ (by decide),
      BitVec.extractLsb'_append_eq_right]
  | shift ind src np =>
    have hnp : np < 2 ^ 4 := of_decide_eq_true hwf
    rw [decodeWord_of_cop_shift (EncodedOpcode.shift ind src np), encode, bitField_append, direction_ofBit_bit, r2Field,
      byteField_append _ _ _ (by decide), byteField_append _ _ _ (by decide), BitVec.extractLsb'_append_eq_left,
      RegisterFile.ofBits_bits, BitVec.extractLsb'_append_eq_right, BitVec.toNat_ofNat, Nat.mod_eq_of_lt hnp]

/-- The bytes of a word are read back as that word, whatever follows. -/
theorem decode_bytesOf_append (w : Word) (rest : List Byte) : decode (bytesOf w ++ rest) = .ok (decodeWord w, rest) := by
  calc decode (bytesOf w ++ rest)
      = .ok (decodeWord (wordOf (highByte w) (lowByte w)), rest) := rfl
    _ = .ok (decodeWord w, rest) := by rw [Machine.wordOf_bytes]

/-- Settles O9: the bytes carry the canonical word, and that decodes to the instruction. -/
theorem decodeEncodeRoundTrip : Obligations.DecodeEncodeRoundTrip := by
  intro i hwf rest
  rw [encodeBytes, decode_bytesOf_append, decodeWord_encode hwf]

/-- The canonical word of the decoded instruction is the word with the bits its row ignores cleared. -/
theorem encode_decodeWord (w : Word) : encode (decodeWord w) = w &&& careMask (copField w) := by
  cases hcop : copField w using cop_cases with
  | nop => rw [decodeWord_of_cop_nop hcop]; exact empty_word hcop
  | halt => rw [decodeWord_of_cop_halt hcop]; exact empty_word hcop
  | load => rw [decodeWord_of_cop_load hcop]; exact address_word hcop
  | store => rw [decodeWord_of_cop_store hcop]; exact address_word hcop
  | inPort => rw [decodeWord_of_cop_in hcop]; exact address_word hcop
  | outPort => rw [decodeWord_of_cop_out hcop]; exact address_word hcop
  | add => rw [decodeWord_of_cop_add hcop]; exact threeAddress_word hcop
  | sub => rw [decodeWord_of_cop_sub hcop]; exact threeAddress_word hcop
  | orReg => rw [decodeWord_of_cop_or hcop]; exact threeAddress_word hcop
  | andReg => rw [decodeWord_of_cop_and hcop]; exact threeAddress_word hcop
  | xorReg => rw [decodeWord_of_cop_xor hcop]; exact threeAddress_word hcop
  | mov => rw [decodeWord_of_cop_mov hcop]; exact twoAddress_word hcop
  | notReg => rw [decodeWord_of_cop_not hcop]; exact twoAddress_word hcop
  | li =>
    rw [decodeWord_of_cop_li hcop, encode, byteSel_bit_ofBit]
    exact bit_byte_word hcop
  | shift =>
    rw [decodeWord_of_cop_shift hcop, encode, direction_bit_ofBit, bits_r2Field, BitVec.ofNat_toNat, BitVec.setWidth_eq,
      ← byte_eq_nibbles]
    exact bit_byte_word hcop
  | jump => rw [decodeWord_of_cop_jump hcop]; exact jump_word hcop

/-- The canonical word of any instruction, well formed or not, carries its operation code. -/
theorem copField_encode (i : Instr) : copField (encode i) = i.opcode := by
  cases i <;> exact copField_append _ _

/-- No row ignores a bit of COP. -/
theorem copField_careMask (cop : BitVec 4) : copField (careMask cop) = BitVec.allOnes 4 := by
  revert cop; decide

theorem copField_and_careMask (w : Word) (cop : BitVec 4) : copField (w &&& careMask cop) = copField w := by
  calc copField (w &&& careMask cop)
      = copField w &&& copField (careMask cop) := BitVec.extractLsb'_and
    _ = copField w := by rw [copField_careMask, BitVec.and_allOnes]

/-- R61: decoding keeps the operation code, because the canonical word of the decoded instruction still has that of the word. -/
theorem opcode_decodeWord (w : Word) : (decodeWord w).opcode = copField w := by
  rw [← copField_encode, encode_decodeWord, copField_and_careMask]

/-- Settles O2. -/
theorem operationCodeAloneSelects : Obligations.OperationCodeAloneSelects :=
  ⟨opcode_decodeWord, fun w w' => by rw [opcode_decodeWord, opcode_decodeWord]; exact Iff.rfl⟩

/-- SHIFT alone has an operand wider than its field. -/
theorem wellFormed_of_opcode_ne_shift {i : Instr} (h : i.opcode ≠ 11) : i.WellFormed := by
  cases i with
  | shift => exact absurd rfl h
  | _ => rfl

/-- R108: a count read from four bits is below 16. -/
theorem wellFormed_decodeWord (w : Word) : (decodeWord w).WellFormed := by
  by_cases hcop : copField w = 11
  · rw [decodeWord_of_cop_shift hcop]
    exact decide_eq_true (w.extractLsb' 0 4).isLt
  · exact wellFormed_of_opcode_ne_shift (opcode_decodeWord w ▸ hcop)

/-- Settles O10, with `copField` I[15:12] by definition. -/
theorem encodeDecodeCanonical : Obligations.EncodeDecodeCanonical := fun w =>
  ⟨wellFormed_decodeWord w, encode_decodeWord w⟩

end Sys2Proof.Laws.RoundTrip
end

section
/-! PROOFS. What the decoded operands do (spec/30_encoding.md R64, R67): which operand of a three-address instruction comes
first, and which byte of the accumulator LI writes. -/

namespace Sys2Proof.Laws.OperandRoles

open Sys2Proof.Machine Sys2Proof.Laws.DecoderTable

/-! The order of the operands (R64) -/

theorem addCarry_comm (a b : Word) : addCarry a b = addCarry b a := by
  rw [addCarry, Nat.add_comm, addCarry]

/-- Where the operands have one sign, it does not matter whose sign the result is compared with. -/
theorem addOverflow_comm (a b r : Word) : addOverflow a b r = addOverflow b a r := by
  unfold addOverflow
  cases a.getLsbD 15 <;> cases b.getLsbD 15 <;> rfl

section Order
variable (dst fst snd : Reg) (s : State)

theorem execAdd_comm : execAdd dst fst snd s = execAdd dst snd fst s := by
  simp only [execAdd, BitVec.add_comm (s.reg snd), addCarry_comm (s.reg snd), addOverflow_comm (s.reg snd)]

theorem execOr_comm : execOr dst fst snd s = execOr dst snd fst s := by
  rw [execOr, BitVec.or_comm, execOr]

theorem execAnd_comm : execAnd dst fst snd s = execAnd dst snd fst s := by
  rw [execAnd, BitVec.and_comm, execAnd]

theorem execXor_comm : execXor dst fst snd s = execXor dst snd fst s := by
  rw [execXor, BitVec.xor_comm, execXor]

/-- SUB (R97) completes with first minus second in its destination, RS apart, whose status bits are written after it. -/
theorem execSub_result : ∃ t, execSub dst fst snd s = .next t ∧ (dst ≠ .rs → t.reg dst = s.reg fst - s.reg snd) := by
  refine ⟨_, execSub_eq dst fst snd s, fun hdst => ?_⟩
  rw [State.reg_setZNCOP_of_ne _ _ _ _ hdst, State.reg_setReg, if_pos rfl]

end Order

/-- Settles O4: the fields by the rows of the table, the order by the meaning of each instruction. -/
theorem threeAddressFields : Obligations.ThreeAddressFields :=
  ⟨fun _ => ⟨decodeWord_of_cop_add, decodeWord_of_cop_sub, decodeWord_of_cop_or, decodeWord_of_cop_and,
    decodeWord_of_cop_xor⟩,
  fun d a b s => ⟨execAdd_comm d a b s, execOr_comm d a b s, execAnd_comm d a b s, execXor_comm d a b s,
    execSub_result d a b s⟩⟩

/-! The byte LI writes (R67) -/

theorem lowByte_wordOf (high low : Byte) : lowByte (wordOf high low) = low :=
  BitVec.extractLsb'_append_eq_right

theorem highByte_wordOf (high low : Byte) : highByte (wordOf high low) = high :=
  BitVec.extractLsb'_append_eq_left

theorem lowByte_replaceByte_lower (v : Word) (podatak : Byte) : lowByte (replaceByte .lower v podatak) = podatak :=
  lowByte_wordOf _ _

theorem highByte_replaceByte_upper (v : Word) (podatak : Byte) : highByte (replaceByte .upper v podatak) = podatak :=
  highByte_wordOf _ _

/-- LI (R85) completes with the accumulator's byte replaced, which the status update leaves. -/
theorem exec_li_acc (lb : ByteSel) (podatak : Byte) (s : State) :
    ∃ t, exec (.li lb podatak) s = .next t ∧ t.reg .acc = replaceByte lb (s.reg .acc) podatak := by
  refine ⟨_, rfl, ?_⟩
  rw [State.reg_setZNP_of_ne _ _ (by decide), State.reg_setReg, if_pos rfl]

/-- lb as the model reads it from the word is the test of I[8]. -/
theorem byteSel_ofBit_extractLsb' (w : Word) :
    ByteSel.ofBit (w.extractLsb' 8 1) = if w.getLsbD 8 then .upper else .lower := by
  rw [BitVec.getLsbD_eq_extractLsb']
  generalize w.extractLsb' 8 1 = b
  revert b; decide

theorem decodeWord_li_of_bit {w : Word} (hcop : copField w = 1) :
    decodeWord w = .li (if w.getLsbD 8 then .upper else .lower) (w.extractLsb' 0 8) := by
  rw [decodeWord_of_cop_li hcop, byteSel_ofBit_extractLsb']

/-- Settles O6: I[8] selects the byte, and I[7:0] is what that byte of the accumulator then holds. -/
theorem immediateFields : Obligations.ImmediateFields := by
  intro w hcop
  have hdecode := decodeWord_li_of_bit hcop
  refine ⟨hdecode, fun s => ?_⟩
  rw [hdecode]
  obtain ⟨t, hexec, hacc⟩ := exec_li_acc (if w.getLsbD 8 then .upper else .lower) (w.extractLsb' 0 8) s
  refine ⟨t, hexec, fun hbit => ?_, fun hbit => ?_⟩
  · rw [hacc, hbit]
    exact lowByte_replaceByte_lower _ _
  · rw [hacc, hbit]
    exact highByte_replaceByte_upper _ _

end Sys2Proof.Laws.OperandRoles
end

section
/-! PROOFS. The instruction cycle (spec/40_instruction_cycle_nop.md R80): the word fetched in the bytes of memory, and what the
increment of PC changes. -/

namespace Sys2Proof.Laws.InstructionCycle

open Sys2Proof.Machine

/-- The two bytes of a memory word, lower byte first, decode to what the word decodes to (R60). -/
theorem decode_bytes_at (m : Memory) (a : WordAddr) :
    decode [m.readByte (byteAddr a), m.readByte (byteAddr a + 1)] = .ok (decodeWord (m.readWord a), []) := rfl

/-- R43, read the other way: the address with the number of RC ++ PC[11:0] is the fetch address. -/
theorem eq_fetchAddress {s : State} {a : WordAddr}
    (ha : a.toNat = (s.reg .rc).toNat * 4096 + (s.reg .pc).toNat % 4096) : a = s.fetchAddress :=
  BitVec.eq_of_toNat_eq (ha.trans (NextFetch.fetchAddress_toNat s).symm)

/-- The increment of PC (R28) is modulo 2^16, and writes no other register and nothing outside the registers. -/
theorem advancePc_frame (s : State) :
    s.advancePc.reg .pc = s.reg .pc + 1 ∧ SameRegsBut [.pc] s s.advancePc ∧ SameOutside s s.advancePc := by
  have hpc : s.advancePc.reg .pc = s.reg .pc + 1 := by simp
  have hregs : SameRegsBut [.pc] s s.advancePc := fun r hr => by
    rw [State.reg_advancePc, if_neg (by simpa using hr)]
  have hmem : SameMemory s s.advancePc := fun b => by rw [State.advancePc_mem]
  exact ⟨hpc, hregs, hmem, ⟨s.advancePc_ioEvents, s.advancePc_ioAnswers⟩, s.advancePc_halted, s.advancePc_params⟩

/-- Settles O13: the word at the fetch address is the one the two bytes decode as, and a running machine executes it after the
increment of PC. -/
theorem stepRunsDecodedInstruction : Obligations.StepRunsDecodedInstruction := by
  intro s a i hr ha hk hdecode _
  obtain rfl := eq_fetchAddress ha
  rw [decode_bytes_at] at hdecode
  cases hdecode
  exact ⟨step_running hr hk, advancePc_frame s⟩

end Sys2Proof.Laws.InstructionCycle
end

section
/-! PROOFS. The ways PC changes (spec/45_jump.md R112): the condition of JUMP in the terms of R110 and R111, what a JUMP does to
PC, and that every other instruction writes PC only as its destination. -/

namespace Sys2Proof.Laws.ControlTransfer

open Sys2Proof.Machine Sys2Proof.Laws.RegisterFrame

/-! The condition of JUMP (R110, R111, D6) -/

/-- R14: the places 0 to 4 of RS are those of the status bits. -/
theorem exists_flag_bit_eq_iff {k : Nat} : (∃ f : Flag, f.bit = k) ↔ k < 5 := by
  constructor
  · rintro ⟨f, rfl⟩
    exact flag_bit_lt_five f
  · intro hk
    match k, hk with
    | 0, _ => exact ⟨.z, rfl⟩
    | 1, _ => exact ⟨.n, rfl⟩
    | 2, _ => exact ⟨.c, rfl⟩
    | 3, _ => exact ⟨.o, rfl⟩
    | 4, _ => exact ⟨.p, rfl⟩

/-- A JUMP is taken where J is 1 or a status bit is 1 whose test bit is 1. -/
theorem jumpTaken_iff {maska : BitVec 6} {s : State} :
    jumpTaken maska (s.reg .rs) = true ↔
      maska.getLsbD 5 = true ∨ ∃ f : Flag, maska.getLsbD f.bit = true ∧ s.flag f = true := by
  have selected : (maska.extractLsb' 0 5 &&& (s.reg .rs).extractLsb' 0 5) ≠ 0#5 ↔
      ∃ f : Flag, maska.getLsbD f.bit = true ∧ s.flag f = true := by
    simp [BitVec.zero_iff_eq_false, ← exists_flag_bit_eq_iff, State.flag]
  rw [← selected, jumpTaken, Bool.or_eq_true, bne_iff_ne]

/-- All a JUMP can do: move RJ to PC where its condition holds, or nothing. -/
theorem execJump_next {maska : BitVec 6} {s t : State} (h : execJump maska s = .next t) :
    (jumpTaken maska (s.reg .rs) = true ∧ t = s.jumpTo (s.reg .rj)) ∨
    (jumpTaken maska (s.reg .rs) = false ∧ t = s) := by
  unfold execJump at h
  split at h
  next taken => cases h; exact .inl ⟨taken, rfl⟩
  next untaken => cases h; exact .inr ⟨by simpa using untaken, rfl⟩

/-! The other instructions -/

/-- Every instruction but JUMP writes no register but RS and its destinations. `exec_writesOnly` grants PC to every instruction;
here PC changes only as a destination. -/
theorem exec_sameRegsBut {i : Instr} {s t : State} (hi : ∀ maska, i ≠ .jump maska) (h : exec i s = .next t) :
    SameRegsBut (.rs :: destinations i) s t := by
  intro r hr
  obtain ⟨hrs, hdst⟩ : r ≠ .rs ∧ r ∉ destinations i := by simpa using hr
  cases i with
  | jump maska => exact absurd rfl (hi maska)
  | nop | halt => cases h; rfl
  | outPort =>
    cases h
    simp [State.reg_setZNP_of_ne, hrs]
  | store adresa =>
    obtain ⟨u, hu, ht⟩ := orFault_next h
    cases ht
    rw [State.reg_setZNP_of_ne _ _ hrs]
    exact (WritesOnly.storeWord (ds := []) (fs := []) hu).regs r (by simpa using hrs)
  | li | mov | add | notReg | orReg | andReg | xorReg =>
    cases h
    have hne := List.ne_of_not_mem_cons hdst
    simp [State.reg_setZP_of_ne, State.reg_setZNP_of_ne, State.reg_setZNCOP_of_ne, hrs, hne]
  | load adresa =>
    obtain ⟨v, -, hv⟩ := orFault_next h
    cases hv
    have hne := List.ne_of_not_mem_cons hdst
    simp [State.reg_setZNP_of_ne, hrs, hne]
  | inPort adresa =>
    cases (execIn_eq adresa s).symm.trans h
    have hne := List.ne_of_not_mem_cons hdst
    obtain ⟨hregs, -⟩ := s.ioRead_frame adresa
    rw [State.reg_setZNP_of_ne _ _ hrs, State.reg_setReg, if_neg hne, State.reg, hregs, State.reg]
  | sub dst fst snd =>
    cases (execSub_eq dst fst snd s).symm.trans h
    have hne := List.ne_of_not_mem_cons hdst
    obtain ⟨n, hn⟩ := s.subCarry_frame (s.reg fst) (s.reg snd)
    simp [State.reg_setZNCOP_of_ne, hrs, hne, hn]
  | shift ind src np =>
    cases h
    have hne := List.ne_of_not_mem_cons hdst
    obtain ⟨hregs, -⟩ := State.setShiftFlags_frame (s.setReg .acc (shiftWord ind (s.reg src) np))
      (shiftWord ind (s.reg src) np) (s.reg src) np
    rw [hregs r (by simpa using hrs), State.reg_setReg, if_neg hne]

/-! Steps -/

/-- Settles O43: the instruction starts from PC + 1 and the RS and RJ of the state before the step. A JUMP keeps that PC or moves RJ
to it, and any other instruction keeps it unless PC is a destination. -/
theorem programCounterSequence : Obligations.ProgramCounterSequence := by
  intro s t hr h hpc
  rcases step_next h with ⟨hh, -⟩ | ⟨-, -, hx⟩
  · rw [hr] at hh
    cases hh
  have hrs : s.advancePc.reg .rs = s.reg .rs := by simp
  by_cases hjump : ∃ maska, decodeWord (s.mem.readWord s.fetchAddress) = .jump maska
  · obtain ⟨maska, hdecode⟩ := hjump
    rw [hdecode] at hx
    rcases execJump_next hx with ⟨taken, rfl⟩ | ⟨-, rfl⟩
    · rw [hrs] at taken
      exact .inr ⟨by simp, maska, hdecode, jumpTaken_iff.mp taken⟩
    · exact .inl (by simp)
  · have kept : t.reg .pc = s.advancePc.reg .pc :=
      exec_sameRegsBut (fun maska e => hjump ⟨maska, e⟩) hx .pc (by simpa using hpc)
    exact .inl (by simpa using kept)

end Sys2Proof.Laws.ControlTransfer
end

section
/-! PROOFS. The canonical form of memory (log 3, log 4): reset has it and every step keeps it, since a STORE is the one instruction
that writes there; and a memory of that form is determined by what its bytes read as. -/

namespace Sys2Proof.Laws.MemoryForm

open Sys2Proof.Machine

/-! The form as an invariant -/

section Kept
variable {s t : State}

theorem storeWord_inv {a : WordAddr} {v : Word} (hs : s.Inv) (h : s.storeWord a v = .ok t) : t.Inv := by
  rcases s.storeWord_cases a v with ⟨-, written⟩ | ⟨-, -, dropped⟩ | ⟨-, -, fault⟩ | ⟨-, fault⟩
  · cases written.symm.trans h
    exact Memory.wf_writeWord hs a v
  · cases dropped.symm.trans h; exact hs
  · cases fault.symm.trans h
  · cases fault.symm.trans h

theorem inv_of_mem_eq (hmem : t.mem = s.mem) (hs : s.Inv) : t.Inv := by
  rw [State.Inv, hmem]
  exact hs

theorem exec_inv {i : Instr} (hs : s.Inv) (h : exec i s = .next t) : t.Inv := by
  by_cases hstore : ∃ adresa, i = .store adresa
  · obtain ⟨adresa, rfl⟩ := hstore
    obtain ⟨u, hu, ht⟩ := orFault_next h
    cases ht
    exact inv_of_mem_eq (u.setZNP_mem _) (storeWord_inv hs hu)
  · exact inv_of_mem_eq (MemoryFrame.exec_mem (fun adresa e => hstore ⟨adresa, e⟩) h) hs

/-- Settles O35: an idle step changes nothing, and PC's increment leaves memory to the instruction. -/
theorem stepKeepsMemoryForm : Obligations.StepKeepsMemoryForm := by
  intro s t hs h
  rcases step_next h with ⟨-, rfl⟩ | ⟨-, -, hx⟩
  · exact hs
  · exact exec_inv (inv_of_mem_eq s.advancePc_mem hs) hx

end Kept

/-- Settles O36. -/
theorem resetHasMemoryForm : Obligations.ResetHasMemoryForm := State.reset_mem_wf

/-! The form determines the list -/

/-- An address no cell lists reads as such. -/
theorem readByte_of_forall_ne {m : Memory} {a : Nat} (h : ∀ cell ∈ m, cell.1 ≠ a) : m.readByte a = unlistedByte := by
  induction m with
  | nil => rfl
  | cons cell m ih =>
    rw [Memory.readByte, if_neg (h cell List.mem_cons_self)]
    exact ih fun c hc => h c (List.mem_cons_of_mem _ hc)

/-- Where addresses rise, the first cell of an address is the only one, so it is what the address reads as. -/
theorem readByte_of_mem {m : Memory} (hm : m.Pairwise fun x y => x.1 < y.1) {a : Nat} {v : Byte} (h : (a, v) ∈ m) :
    m.readByte a = v := by
  induction m with
  | nil => cases h
  | cons cell m ih =>
    obtain ⟨hfirst, hrest⟩ := List.pairwise_cons.1 hm
    rcases List.mem_cons.1 h with rfl | h
    · rw [Memory.readByte, if_pos rfl]
    · rw [Memory.readByte, if_neg (hfirst _ h).ne]
      exact ih hrest h

/-- A memory of the canonical form lists exactly the bytes that do not read as unlisted. -/
theorem mem_iff_readByte {m : Memory} (hm : m.wf = true) (cell : Host.Cell) :
    cell ∈ m ↔ m.readByte cell.1 = cell.2 ∧ cell.2 ≠ unlistedByte := by
  obtain ⟨hrising, hcells⟩ := (Memory.wf_iff m).1 hm
  constructor
  · intro h
    exact ⟨readByte_of_mem hrising h, (hcells cell h).2⟩
  · rintro ⟨hread, hlisted⟩
    by_contra hnot
    refine hlisted (hread.symm.trans (readByte_of_forall_ne fun c hc haddr => hnot ?_))
    have hval : c.2 = cell.2 := by rw [← hread, ← haddr, readByte_of_mem hrising hc]
    exact Prod.ext haddr hval ▸ hc

/-- Settles O37: the two lists rise and have the same cells. -/
theorem canonicalMemoriesAreEqual : Obligations.CanonicalMemoriesAreEqual := by
  intro m m' hm hm' hread
  obtain ⟨hrising, -⟩ := (Memory.wf_iff m).1 hm
  obtain ⟨hrising', -⟩ := (Memory.wf_iff m').1 hm'
  refine hrising.eq_of_mem_iff hrising' fun cell => ?_
  rw [mem_iff_readByte hm, mem_iff_readByte hm', hread]

end Sys2Proof.Laws.MemoryForm
end

section
/-! PROOFS. What further words decode to (spec/30_encoding.md R66 to R71): the formats S, J and Z, words that differ only in ignored
bits, the pseudo-instructions of R106, and the words of spec/95_test_vectors.md. -/

namespace Sys2Proof.Laws.DecodedWords

open Sys2Proof.Laws.DecoderTable Sys2Proof.Laws.TwoAddress Sys2Proof.Laws.Formats Sys2Proof.Laws.RegisterFile
  Sys2Proof.Laws.RoundTrip

/-! Formats S, J and Z -/

/-- ind as the model reads it from the word is the test of I[8]. -/
theorem direction_ofBit_extractLsb' (w : Word) :
    Direction.ofBit (w.extractLsb' 8 1) = if w.getLsbD 8 then .right else .left := by
  rw [BitVec.getLsbD_eq_extractLsb']
  generalize w.extractLsb' 8 1 = b
  revert b; decide

theorem decodeWord_shift_of_bit {w : Word} (hcop : copField w = 11) :
    decodeWord w = .shift (if w.getLsbD 8 then .right else .left) (r2Field w) (w.extractLsb' 0 4).toNat := by
  rw [decodeWord_of_cop_shift hcop, direction_ofBit_extractLsb']

/-- Settles O7, one row of the table at a time. -/
theorem shiftJumpAndEmptyFields : Obligations.ShiftJumpAndEmptyFields := fun _ =>
  ⟨decodeWord_shift_of_bit, decodeWord_of_cop_jump, decodeWord_of_cop_nop, decodeWord_of_cop_halt⟩

/-! Ignored bits (R71) -/

/-- Clearing the bits its row ignores makes no other instruction of a word: what is left is the canonical word. -/
theorem decodeWord_and_careMask (w : Word) : decodeWord (w &&& careMask (copField w)) = decodeWord w := by
  rw [← encode_decodeWord, decodeWord_encode (wellFormed_decodeWord w)]

/-- The words need to agree only under the mask of one of them, because no mask clears a bit of COP. -/
theorem decodeWord_eq_of_and_careMask_eq {w w' : Word}
    (h : w &&& careMask (copField w) = w' &&& careMask (copField w)) : decodeWord w = decodeWord w' := by
  have hcop : copField w = copField w' := by
    rw [← copField_and_careMask w (copField w), h, copField_and_careMask]
  rw [← decodeWord_and_careMask w, h, hcop, decodeWord_and_careMask]

/-- Settles O8: the bits listed for each format are the model's mask of its operation code. -/
theorem ignoredBitsDoNotMatter : Obligations.IgnoredBitsDoNotMatter := by
  intro p hp
  have hmask : p.2 = careMask p.1 := by fin_cases hp <;> rfl
  intro w w' hcop h
  rw [hmask, ← hcop] at h
  exact decodeWord_eq_of_and_careMask_eq h

/-! MOV words (R106) -/

/-- MOV's destination stands in I[11:8] and its source in I[7:4], whatever the last four bits are. -/
theorem decodeWord_mov_append (dst src : Reg) (x : BitVec 4) :
    decodeWord (0x6#4 ++ (dst.bits ++ (src.bits ++ x))) = .mov dst src := by
  rw [decodeWord_of_cop_mov (copField_append 0x6#4 _), r3Field_append, r2Field_append]

/-- Settles O12: the accumulator is register 1000, as destination of MVAC and as source of MVR. -/
theorem pseudoInstructionsAreMov : Obligations.PseudoInstructionsAreMov := by
  intro i x
  have hmvac := decodeWord_mov_append .acc (.ofBits i) x
  have hmvr := decodeWord_mov_append (.ofBits i) .acc x
  rw [bits_ofBits] at hmvac hmvr
  exact ⟨hmvac, rfl, hmvr, rfl⟩

/-- Settles O11: each word by the row of its operation code. -/
theorem sampleWordsDecode : Obligations.SampleWordsDecode :=
  ⟨decodeWord_of_cop_add rfl, decodeWord_of_cop_sub rfl, decodeWord_of_cop_mov rfl, decodeWord_of_cop_shift rfl,
    decodeWord_of_cop_li rfl, decodeWord_of_cop_jump rfl, decodeWord_of_cop_store rfl, decodeWord_of_cop_out rfl⟩

end Sys2Proof.Laws.DecodedWords
end

section
/-! PROOFS. Accesses under MEM_MAP (R50, U9): what a load and a store answer for each kind of word, and so where LOAD, STORE and a
fetch stop; what the instruction cycle does where the fetch succeeds, or the machine is halted. -/

namespace Sys2Proof.Laws.Access

open Sys2Proof.Machine

section
variable {s : State} {a : WordAddr}

theorem orFault_error {α : Type} (f : Fault) (k : α → StepResult) : orFault (.error f) k = .fault f := rfl

theorem loadWord_absent (h : s.kindAt a = .absent) : s.loadWord a = .error (.absentWord a) := by
  simp [State.loadWord, h]

variable (v : Word)

theorem storeWord_absent (h : s.kindAt a = .absent) : s.storeWord a v = .error (.absentWord a) := by
  simp [State.storeWord, h]

theorem storeWord_readWrite (h : s.kindAt a = .readWrite) :
    s.storeWord a v = .ok { s with mem := s.mem.writeWord a v } := by
  simp [State.storeWord, h]

theorem storeWord_dropped (h : s.kindAt a = .readOnly) (hrom : s.params.romStore = .dropped) :
    s.storeWord a v = .ok s := by
  simp [State.storeWord, h, hrom]

theorem storeWord_faults (h : s.kindAt a = .readOnly) (hrom : s.params.romStore = .faults) :
    s.storeWord a v = .error (.readOnlyWord a) := by
  simp [State.storeWord, h, hrom]

end

/-! LOAD and STORE -/

section Instructions
variable {s : State} {adresa : Offset}

theorem exec_load_absent (h : s.kindAt (s.dataAddress adresa) = .absent) :
    exec (.load adresa) s = .fault (.absentWord (s.dataAddress adresa)) := by
  rw [exec, execLoad, loadWord_absent h, orFault_error]

/-- LOAD (R90) where the word is backed. -/
theorem exec_load_backed (h : s.kindAt (s.dataAddress adresa) ≠ .absent) :
    exec (.load adresa) s =
      .next ((s.setReg .acc (s.mem.readWord (s.dataAddress adresa))).setZNP (s.mem.readWord (s.dataAddress adresa))) := by
  rw [exec, execLoad, State.loadWord_ok h, orFault_ok]

theorem exec_store_absent (h : s.kindAt (s.dataAddress adresa) = .absent) :
    exec (.store adresa) s = .fault (.absentWord (s.dataAddress adresa)) := by
  rw [exec, execStore, storeWord_absent _ h, orFault_error]

/-- STORE (R91) to read-write memory. -/
theorem exec_store_readWrite (h : s.kindAt (s.dataAddress adresa) = .readWrite) :
    exec (.store adresa) s =
      .next (State.setZNP { s with mem := s.mem.writeWord (s.dataAddress adresa) (s.reg .acc) } (s.reg .acc)) := by
  rw [exec, execStore, storeWord_readWrite _ h, orFault_ok]

/-- STORE to read-only memory that drops it (log 6). -/
theorem exec_store_dropped (h : s.kindAt (s.dataAddress adresa) = .readOnly) (hrom : s.params.romStore = .dropped) :
    exec (.store adresa) s = .next (s.setZNP (s.reg .acc)) := by
  rw [exec, execStore, storeWord_dropped _ h hrom, orFault_ok]

theorem exec_store_faults (h : s.kindAt (s.dataAddress adresa) = .readOnly) (hrom : s.params.romStore = .faults) :
    exec (.store adresa) s = .fault (.readOnlyWord (s.dataAddress adresa)) := by
  rw [exec, execStore, storeWord_faults _ h hrom, orFault_error]

end Instructions

/-- Settles O24. -/
theorem accessesThatStop : Obligations.AccessesThatStop := fun _ _ =>
  ⟨fun h => ⟨exec_load_absent h, exec_store_absent h⟩, exec_store_faults⟩

/-! The instruction cycle -/

/-- A halted machine idles (R31, D19). -/
theorem step_halted {s : State} (h : s.halted = true) : step s = .next s := by
  rw [step, if_pos h]

/-- Settles O14. -/
theorem haltedMachineStays : Obligations.HaltedMachineStays := fun _ => step_halted

/-- Settles O15: the fetch is a load. -/
theorem fetchFromAbsentWordStops : Obligations.FetchFromAbsentWordStops := by
  intro s hr hk
  rw [step, if_neg (by simp [hr]), State.fetch, loadWord_absent hk, orFault_error]

/-- Placing a word for the fetch moves neither the fetch address nor MEM_MAP, and the word stands there. -/
theorem withFetchWord_fetches (s : State) (w : Word) :
    (s.withFetchWord 16 w.toNat).fetchAddress = s.fetchAddress ∧
    (s.withFetchWord 16 w.toNat).kindAt s.fetchAddress = s.kindAt s.fetchAddress ∧
    (s.withFetchWord 16 w.toNat).mem.readWord s.fetchAddress = w := by
  refine ⟨rfl, rfl, ?_⟩
  rw [State.withFetchWord, Memory.readWord_writeWord, Nat.mod_eq_of_lt w.isLt, BitVec.ofNat_toNat, BitVec.setWidth_eq]

/-- Settles O16: the machine that was given the word runs it. -/
theorem placedWordRunsNext : Obligations.PlacedWordRunsNext := by
  intro s w hk
  obtain ⟨haddr, hkind, hword⟩ := withFetchWord_fetches s w
  rw [step_running rfl (by rwa [haddr, hkind]), haddr, hword]

/-- Settles O17: 4096 divides 2^16, so PC[11:0] of the incremented PC is the increment modulo 4096. -/
theorem nextFetchWrapsInPage : Obligations.NextFetchWrapsInPage := by
  intro s
  have hrc : s.advancePc.reg .rc = s.reg .rc := by simp
  have hpc : (s.advancePc.reg .pc).toNat % 4096 = ((s.reg .pc).toNat + 1) % 4096 := by
    rw [State.reg_advancePc, if_pos rfl, BitVec.toNat_add, Nat.mod_mod_of_dvd _ (by decide)]
    rfl
  rw [NextFetch.fetchAddress_toNat, hrc, hpc]

end Sys2Proof.Laws.Access
end

section
/-! PROOFS. What an instruction that writes a register and then status bits leaves (R20 to R23): the helpers of R7 in the terms the
statements use, and once for each helper the whole effect of a result `v` written to `d` before it. -/

namespace Sys2Proof.Laws.Results

open Sys2Proof.Machine Sys2Proof.Laws.Parity

/-! The status bits in the terms of the statements -/

/-- R6, R16: bit 15 is the sign. -/
theorem isNegative_eq_negative (v : Word) : isNegative v = negative v := by
  calc v.getLsbD 15 = v.msb := (BitVec.msb_eq_getLsbD_last v).symm
    _ = negative v := BitVec.msb_eq_toInt

section Helpers
variable (s : State) (v : Word)

theorem setZP_zpOf : ZpOf (s.reg .rs) ((s.setZP v).reg .rs) v := by
  rw [ZpOf, ← parity_eq_oddOnes]
  exact s.setZP_status v

theorem setZNP_znpOf : ZnpOf (s.reg .rs) ((s.setZNP v).reg .rs) v := by
  rw [ZnpOf, ← parity_eq_oddOnes, ← isNegative_eq_negative]
  exact s.setZNP_status v

theorem setZNCOP_zncopOf (c o : Bool) : ZncopOf (s.reg .rs) ((s.setZNCOP v c o).reg .rs) v c o := by
  rw [ZncopOf, ← parity_eq_oddOnes, ← isNegative_eq_negative]
  exact s.setZNCOP_status v c o

theorem setZP_sameRegsBut : SameRegsBut [.rs] s (s.setZP v) := fun _ hr =>
  s.reg_setZP_of_ne v (List.ne_of_not_mem_cons hr)

theorem setZNP_sameRegsBut : SameRegsBut [.rs] s (s.setZNP v) := fun _ hr =>
  s.reg_setZNP_of_ne v (List.ne_of_not_mem_cons hr)

theorem setZNCOP_sameRegsBut (c o : Bool) : SameRegsBut [.rs] s (s.setZNCOP v c o) := fun _ hr =>
  s.reg_setZNCOP_of_ne v c o (List.ne_of_not_mem_cons hr)

end Helpers

/-! What stands outside the registers -/

/-- The parts of the state `SameOutside` speaks of, field by field. -/
theorem sameOutside_of_eq {s t : State} (hmem : t.mem = s.mem) (hevents : t.ioEvents = s.ioEvents)
    (hanswers : t.ioAnswers = s.ioAnswers) (hhalted : t.halted = s.halted) (hparams : t.params = s.params) :
    SameOutside s t :=
  ⟨fun a => congrArg (Memory.readByte · a) hmem, ⟨hevents, hanswers⟩, hhalted, hparams⟩

theorem setZNP_sameOutside (s : State) (v : Word) : SameOutside s (s.setZNP v) :=
  sameOutside_of_eq (s.setZNP_mem v) (s.setZNP_ioEvents v) (s.setZNP_ioAnswers v) (s.setZNP_halted v) (s.setZNP_params v)

/-- The whole effect of a status update of Z, N and P. -/
theorem setZNP_effect (s : State) (v : Word) :
    ZnpOf (s.reg .rs) ((s.setZNP v).reg .rs) v ∧ SameRegsBut [.rs] s (s.setZNP v) ∧ SameOutside s (s.setZNP v) :=
  ⟨setZNP_znpOf s v, setZNP_sameRegsBut s v, setZNP_sameOutside s v⟩

/-! A result and its status bits -/

section Result
variable (s : State) (d : Reg) (v : Word)

/-- R23: RS as destination holds the result when the status bits are written. -/
theorem rs_setReg : (s.setReg d v).reg .rs = statusBase s d v := by
  simp [statusBase, eq_comm]

variable {s d v} in
/-- A status update after the destination is written leaves the destination, RS apart, and every other register. -/
theorem writesReg_of_sameRegsBut {t : State} (h : SameRegsBut [.rs] (s.setReg d v) t) : WritesReg s t d v := by
  refine ⟨fun hd => ?_, fun r hr => ?_⟩
  · rw [h d (by simpa using hd), State.reg_setReg, if_pos rfl]
  · obtain ⟨hd, hrs⟩ : r ≠ d ∧ r ≠ .rs := by simpa using hr
    rw [h r (by simpa using hrs), State.reg_setReg, if_neg hd]

theorem setReg_setZP_result :
    WritesReg s ((s.setReg d v).setZP v) d v ∧
    ZpOf (statusBase s d v) (((s.setReg d v).setZP v).reg .rs) v ∧ SameOutside s ((s.setReg d v).setZP v) :=
  ⟨writesReg_of_sameRegsBut (setZP_sameRegsBut _ v), rs_setReg s d v ▸ setZP_zpOf (s.setReg d v) v,
    sameOutside_of_eq (by simp) (by simp) (by simp) (by simp) (by simp)⟩

theorem setReg_setZNP_result :
    WritesReg s ((s.setReg d v).setZNP v) d v ∧
    ZnpOf (statusBase s d v) (((s.setReg d v).setZNP v).reg .rs) v ∧ SameOutside s ((s.setReg d v).setZNP v) :=
  ⟨writesReg_of_sameRegsBut (setZNP_sameRegsBut _ v), rs_setReg s d v ▸ setZNP_znpOf (s.setReg d v) v,
    setZNP_sameOutside (s.setReg d v) v⟩

theorem setReg_setZNCOP_result (c o : Bool) :
    WritesReg s ((s.setReg d v).setZNCOP v c o) d v ∧
    ZncopOf (statusBase s d v) (((s.setReg d v).setZNCOP v c o).reg .rs) v c o ∧
    SameOutside s ((s.setReg d v).setZNCOP v c o) :=
  ⟨writesReg_of_sameRegsBut (setZNCOP_sameRegsBut _ v c o),
    rs_setReg s d v ▸ setZNCOP_zncopOf (s.setReg d v) v c o,
    sameOutside_of_eq (by simp) (by simp) (by simp) (by simp) (by simp)⟩

/-- The accumulator as the destination of an instruction that writes Z, N and P. -/
theorem acc_result :
    ((s.setReg .acc v).setZNP v).reg .acc = v ∧
    ZnpOf (s.reg .rs) (((s.setReg .acc v).setZNP v).reg .rs) v ∧
    SameRegsBut [.acc, .rs] s ((s.setReg .acc v).setZNP v) ∧ SameOutside s ((s.setReg .acc v).setZNP v) := by
  obtain ⟨⟨hacc, hregs⟩, hflags, houtside⟩ := setReg_setZNP_result s .acc v
  exact ⟨hacc (by decide), hflags, hregs, houtside⟩

end Result

end Sys2Proof.Laws.Results
end

section
/-! PROOFS. The instructions that move a value: LI (spec/41_immediate_li.md), LOAD and STORE (spec/42_memory_load_store.md) and MOV
(spec/44_two_address_mov_not_shift.md R105). -/

namespace Sys2Proof.Laws.Transfers

open Sys2Proof.Machine Sys2Proof.Laws.Results Sys2Proof.Laws.OperandRoles Sys2Proof.Laws.Access

/-! LI -/

theorem lowByte_replaceByte (lb : ByteSel) (v : Word) (podatak : Byte) :
    lowByte (replaceByte lb v podatak) = if lb = .lower then podatak else lowByte v := by
  cases lb <;> exact lowByte_wordOf _ _

theorem highByte_replaceByte (lb : ByteSel) (v : Word) (podatak : Byte) :
    highByte (replaceByte lb v podatak) = if lb = .upper then podatak else highByte v := by
  cases lb <;> exact highByte_wordOf _ _

/-- Settles O20: the accumulator then holds the word with one byte replaced. -/
theorem liReplacesOneByte : Obligations.LiReplacesOneByte := by
  intro lb podatak s
  obtain ⟨hacc, hflags, hframe⟩ := acc_result s (replaceByte lb (s.reg .acc) podatak)
  refine ⟨_, rfl, ?_, ?_, hacc.symm ▸ hflags, hframe⟩
  · rw [hacc]; exact lowByte_replaceByte lb _ podatak
  · rw [hacc]; exact highByte_replaceByte lb _ podatak

/-! LOAD -/

/-- R42, D4: RD ++ adresa, as a number. -/
theorem dataAddress_toNat (s : State) (adresa : Offset) :
    (s.dataAddress adresa).toNat = (s.reg .rd).toNat * 4096 + adresa.toNat :=
  NextFetch.addr28_toNat _ _

/-- Settles O21: the word loaded is made of the two bytes at its address. -/
theorem loadFillsAccumulator : Obligations.LoadFillsAccumulator := by
  intro adresa s a ha hk
  obtain rfl : a = s.dataAddress adresa := BitVec.eq_of_toNat_eq (ha.trans (dataAddress_toNat s adresa).symm)
  obtain ⟨hacc, hflags, hframe⟩ := acc_result s (s.mem.readWord (s.dataAddress adresa))
  refine ⟨_, exec_load_backed hk, ?_, ?_, hacc.symm ▸ hflags, hframe⟩
  · rw [hacc]; exact lowByte_wordOf _ _
  · rw [hacc]; exact highByte_wordOf _ _

/-! STORE -/

/-- The word written is its two bytes in memory. -/
theorem readByte_writeWord_same (m : Memory) (a : WordAddr) (v : Word) :
    (m.writeWord a v).readByte (byteAddr a) = lowByte v ∧ (m.writeWord a v).readByte (byteAddr a + 1) = highByte v := by
  simp [Memory.readByte_writeWord]

/-- Settles O22: memory is that of the write, and the status bits are written over a state that differs in memory alone. -/
theorem storeWritesOneWord : Obligations.StoreWritesOneWord := by
  intro adresa s hk
  have hexec := exec_store_readWrite hk
  obtain ⟨hlow, hhigh⟩ := readByte_writeWord_same s.mem (s.dataAddress adresa) (s.reg .acc)
  obtain ⟨hflags, hregs, -, hports, hcontrol⟩ :=
    setZNP_effect { s with mem := s.mem.writeWord (s.dataAddress adresa) (s.reg .acc) } (s.reg .acc)
  refine ⟨dataAddress_toNat s adresa, _, hexec, ?_, ?_, MemoryFrame.exec_store_sameMemoryBut hexec, hflags, hregs, hports,
    hcontrol⟩
  · rw [State.setZNP_mem]; exact hlow
  · rw [State.setZNP_mem]; exact hhigh

/-- Settles O23: what is left of the STORE is its status update. -/
theorem storeToReadOnlyIsDropped : Obligations.StoreToReadOnlyIsDropped := fun _ s hk hrom =>
  ⟨_, exec_store_dropped hk hrom, setZNP_effect s _⟩

/-! MOV -/

/-- Settles O28. -/
theorem movCopies : Obligations.MovCopies :=
  ⟨fun _ => TwoAddress.decodeWord_of_cop_mov,
    fun d r s => ⟨_, NextFetch.exec_mov d r s, setReg_setZNP_result s d (s.reg r)⟩⟩

end Sys2Proof.Laws.Transfers
end

section
/-! PROOFS. The instructions of the arithmetic and logic unit and the shifter (spec/43_alu_three_address.md R96 to R100,
spec/44_two_address_mov_not_shift.md R107, R108). -/

namespace Sys2Proof.Laws.Alu

open Sys2Proof.Machine Sys2Proof.Laws.Results Sys2Proof.Laws.Parity Sys2Proof.Laws.DecoderTable

/-! ADD and SUB -/

/-- R18: equal signs and a result of the other sign are what a sum outside the signed range looks like. -/
theorem addOverflow_eq_outOfRange (a b : Word) : addOverflow a b (a + b) = outOfRange (a.toInt + b.toInt) := by
  calc addOverflow a b (a + b)
      = a.saddOverflow b := by
        rw [BitVec.saddOverflow_eq]
        simp only [addOverflow, BitVec.msb_eq_getLsbD_last, bne]
    _ = outOfRange (a.toInt + b.toInt) := by
        simp only [BitVec.saddOverflow, outOfRange, ← Bool.decide_or, decide_eq_decide]
        omega

/-- R18: different signs and a result without the minuend's are what a difference outside the signed range looks like. -/
theorem subOverflow_eq_outOfRange (a b : Word) : subOverflow a b (a - b) = outOfRange (a.toInt - b.toInt) := by
  calc subOverflow a b (a - b)
      = a.ssubOverflow b := by
        rw [BitVec.ssubOverflow_eq]
        simp only [subOverflow, BitVec.msb_eq_getLsbD_last]
        cases a.getLsbD 15 <;> cases b.getLsbD 15 <;> cases (a - b).getLsbD 15 <;> rfl
    _ = outOfRange (a.toInt - b.toInt) := by
        simp only [BitVec.ssubOverflow, outOfRange, ← Bool.decide_or, decide_eq_decide]
        omega

/-- ADD (R96), O said as signed overflow. -/
theorem exec_add (d f g : Reg) (s : State) :
    exec (.add d f g) s =
      .next ((s.setReg d (s.reg f + s.reg g)).setZNCOP (s.reg f + s.reg g) (addCarry (s.reg f) (s.reg g))
        (outOfRange ((s.reg f).toInt + (s.reg g).toInt))) := by
  rw [← addOverflow_eq_outOfRange]
  rfl

/-- Settles O25: C is the 17th bit of the sum by definition. -/
theorem addComputesSum : Obligations.AddComputesSum := fun d f g s =>
  ⟨_, _, exec_add d f g s, BitVec.toNat_add _ _, setReg_setZNCOP_result s d _ _ _⟩

theorem toNat_sub_word (a b : Word) : (a - b).toNat = (a.toNat + 65536 - b.toNat) % 65536 := by
  have := b.isLt
  rw [BitVec.toNat_sub]
  omega

/-- Under SUB_CARRY = carry out, C is that no borrow is needed. -/
theorem subCarry_carryOut {s : State} (h : s.params.subCarry = .carryOut) (a b : Word) :
    (s.subCarry a b).1 = decide (b.toNat ≤ a.toNat) := by
  rw [State.subCarry, h]

theorem subCarry_borrow {s : State} (h : s.params.subCarry = .borrow) (a b : Word) :
    (s.subCarry a b).1 = decide (a.toNat < b.toNat) := by
  rw [State.subCarry, h]

/-- Settles O26: SUB runs on a state in which only draws may have been counted. -/
theorem subComputesDifference : Obligations.SubComputesDifference := by
  intro d f g s
  have hexec : exec (.sub d f g) s = _ := execSub_eq d f g s
  obtain ⟨n, hn⟩ := s.subCarry_frame (s.reg f) (s.reg g)
  rw [hn, subOverflow_eq_outOfRange] at hexec
  obtain ⟨hwrites, hflags, houtside⟩ := setReg_setZNCOP_result (s.drawn n) d (s.reg f - s.reg g)
    (s.subCarry (s.reg f) (s.reg g)).1 (outOfRange ((s.reg f).toInt - (s.reg g).toInt))
  exact ⟨_, _, _, hexec, toNat_sub_word _ _, hwrites, fun h => subCarry_carryOut h _ _, fun h => subCarry_borrow h _ _,
    hflags, houtside⟩

/-! OR, AND and XOR -/

/-- Settles O27: the three share their effect, and differ in the word they compute. -/
theorem logicComputesBitwise : Obligations.LogicComputesBitwise := by
  refine ⟨fun _ => ⟨decodeWord_of_cop_or, decodeWord_of_cop_and, decodeWord_of_cop_xor⟩, ?_⟩
  simp only [List.forall_mem_cons]
  refine ⟨fun d f g s => ?_, fun d f g s => ?_, fun d f g s => ?_, fun _ h => absurd h List.not_mem_nil⟩
  · exact ⟨_, _, rfl, fun _ _ => BitVec.getLsbD_or, setReg_setZP_result s d _⟩
  · exact ⟨_, _, rfl, fun _ _ => BitVec.getLsbD_and, setReg_setZP_result s d _⟩
  · exact ⟨_, _, rfl, fun _ _ => BitVec.getLsbD_xor, setReg_setZP_result s d _⟩

/-! NOT -/

/-- The complement has its 1 bits where the word has 0 bits. -/
theorem onesIn_not (v : Word) : onesIn v + onesIn (~~~v) = 16 := by
  have hzeros : onesIn (~~~v) = (List.range 16).countP fun k => !v.getLsbD k :=
    List.countP_congr fun k hk => by simp [List.mem_range.1 hk]
  rw [hzeros, onesIn]
  have hall := List.length_eq_countP_add_countP (fun k => v.getLsbD k) (l := List.range 16)
  simpa using hall.symm

/-- Sixteen is even, so the complement has the parity of the word. -/
theorem oddOnes_not (v : Word) : oddOnes (~~~v) = oddOnes v := by
  have hsum := onesIn_not v
  rw [oddOnes, oddOnes, decide_eq_decide]
  omega

theorem toNat_not_word (v : Word) : (~~~v).toNat = 65535 - v.toNat := BitVec.toNat_not

/-- Counting draws shows neither in the registers nor outside them. -/
theorem result_drawn {s t : State} {d : Reg} {before v : Word} {c o : Bool} (n : Nat)
    (h : WritesReg s t d v ∧ ZncopOf before (t.reg .rs) v c o ∧ SameOutside s t) :
    WritesReg s (t.drawn n) d v ∧ ZncopOf before ((t.drawn n).reg .rs) v c o ∧ SameOutside s (t.drawn n) := h

/-- Settles O29: C and O are the two bits drawn, and the draws are counted at the end. -/
theorem notComplements : Obligations.NotComplements := fun d r s =>
  ⟨_, _, s.freeBit 0 (s.reg r) 0, s.freeBit 1 (s.reg r) 0, rfl, toNat_not_word (s.reg r), oddOnes_not (s.reg r),
    result_drawn 2 (setReg_setZNCOP_result s d _ _ _)⟩

/-! SHIFT -/

/-- R108, D16: the shifter as arithmetic. -/
theorem shiftWord_toNat (ind : Direction) (v : Word) (np : Nat) :
    (shiftWord ind v np).toNat =
      match ind with
      | .left => v.toNat * 2 ^ np % 65536
      | .right => v.toNat / 2 ^ np := by
  cases ind with
  | left =>
    show (v <<< np).toNat = v.toNat * 2 ^ np % 65536
    rw [BitVec.toNat_shiftLeft, Nat.shiftLeft_eq]
  | right =>
    show (v >>> np).toNat = v.toNat / 2 ^ np
    rw [BitVec.toNat_ushiftRight, Nat.shiftRight_eq_div_pow]

theorem setShiftFlags_znp {s : State} (h : s.params.shiftFlags = .znp) (r v : Word) (np : Nat) :
    s.setShiftFlags r v np = s.setZNP r := by
  rw [State.setShiftFlags, h]

/-- The accumulator as the destination of SHIFT, `u` and `np` the operands its free bits depend on: whatever SHIFT_FLAGS says, the
status update stays inside the status bits of RS. -/
theorem acc_setShiftFlags_result (s : State) (v u : Word) (np : Nat) :
    let t := (s.setReg .acc v).setShiftFlags v u np
    t.reg .acc = v ∧ SameRegsBut [.acc, .rs] s t ∧ SameOutside s t ∧
      (s.params.shiftFlags = .znp → ZnpOf (s.reg .rs) (t.reg .rs) v) ∧
      ∀ k, 5 ≤ k → (t.reg .rs).getLsbD k = (s.reg .rs).getLsbD k := by
  obtain ⟨hregs, hmem, ⟨hevents, hanswers⟩, ⟨hhalted, hparams⟩, hhigh⟩ :=
    State.setShiftFlags_frame (s.setReg .acc v) v u np
  obtain ⟨hacc, hothers⟩ := writesReg_of_sameRegsBut hregs
  refine ⟨hacc (by decide), hothers, sameOutside_of_eq hmem hevents hanswers hhalted hparams, fun hznp => ?_,
    fun k hk => ?_⟩
  · rw [setShiftFlags_znp (s := s.setReg .acc v) hznp]
    exact setZNP_znpOf (s.setReg .acc v) v
  · rw [hhigh k hk, State.reg_setReg, if_neg (by decide)]

/-- Settles O30. -/
theorem shiftMovesBits : Obligations.ShiftMovesBits := fun ind r np s =>
  ⟨_, _, rfl, shiftWord_toNat ind (s.reg r) np, acc_setShiftFlags_result s _ (s.reg r) np⟩

end Sys2Proof.Laws.Alu
end

section
/-! PROOFS. The instructions that transfer control (NOP, JUMP, HALT: spec/40_instruction_cycle_nop.md, spec/45_jump.md,
spec/47_halt.md) and the runs of a halted machine. -/

namespace Sys2Proof.Laws.Control

open Sys2Proof.Machine Sys2Proof.Laws.Results Sys2Proof.Laws.ControlTransfer

/-- Settles O19. -/
theorem nopChangesNothing : Obligations.NopChangesNothing := fun _ => rfl

/-! JUMP -/

theorem exec_jump_taken {maska : BitVec 6} {s : State} (h : jumpTaken maska (s.reg .rs) = true) :
    exec (.jump maska) s = .next (s.jumpTo (s.reg .rj)) := by
  rw [exec, execJump, if_pos h]

theorem exec_jump_untaken {maska : BitVec 6} {s : State} (h : ¬ jumpTaken maska (s.reg .rs) = true) :
    exec (.jump maska) s = .next s := by
  rw [exec, execJump, if_neg h]

/-- Settles O31: the condition of the model is that of the rule, so each clause is about one of the two outcomes. -/
theorem jumpGoesToRj : Obligations.JumpGoesToRj := by
  intro maska s
  by_cases taken : jumpTaken maska (s.reg .rs) = true
  · refine ⟨_, exec_jump_taken taken, fun _ => by simp, fun hj hflags => ?_, fun r hr => ?_,
      sameOutside_of_eq rfl rfl rfl rfl rfl⟩
    · rcases jumpTaken_iff.mp taken with hj' | ⟨f, hmask, hset⟩
      · cases hj.symm.trans hj'
      · cases (hflags f hmask).symm.trans hset
    · rw [State.reg_jumpTo, if_neg (by simpa using hr)]
  · exact ⟨_, exec_jump_untaken taken, fun hcond => absurd (jumpTaken_iff.mpr hcond) taken, fun _ _ => rfl,
      fun _ _ => rfl, sameOutside_of_eq rfl rfl rfl rfl rfl⟩

/-! HALT -/

/-- A run goes on from the state its first step answers. -/
theorem run_succ_of_step {s t : State} (h : step s = .next t) (n : Nat) :
    Sys2Proof.core.run (n + 1) s = Sys2Proof.core.run n t := by
  have hcore : Sys2Proof.core.step s = .next t := h
  simp only [Host.Core.run, hcore]

theorem run_halted {s : State} (h : s.halted = true) (n : Nat) : Sys2Proof.core.run n s = .next s := by
  induction n with
  | zero => rfl
  | succ n ih => exact (run_succ_of_step (Access.step_halted h) n).trans ih

/-- Settles O34. -/
theorem haltStopsForGood : Obligations.HaltStopsForGood := fun s =>
  ⟨s.halt, rfl, s.halt_halted, fun _ _ => rfl, fun _ => rfl, ⟨rfl, rfl⟩, rfl, run_halted s.halt_halted⟩

end Sys2Proof.Laws.Control
end

section
/-! PROOFS. The ports (spec/46_io_in_out.md): what IN takes from the words queued, what OUT sends, and that neither reads a page
register (R45). -/

namespace Sys2Proof.Laws.Ports

open Sys2Proof.Machine Sys2Proof.Laws.Results

/-! The queue -/

/-- The first word queued for the port is taken from behind those for other ports. -/
theorem takeAnswer_append {port : Port} {before : List IoAnswer} (h : ∀ x ∈ before, x.port ≠ port) (v : Word)
    (after : List IoAnswer) : takeAnswer port (before ++ ⟨port, v⟩ :: after) = some (v, before ++ after) := by
  induction before with
  | nil => simp [takeAnswer]
  | cons x before ih =>
    obtain ⟨hx, hrest⟩ := List.forall_mem_cons.1 h
    simp [takeAnswer, hx, ih hrest]

theorem takeAnswer_none {port : Port} {answers : List IoAnswer} (h : ∀ x ∈ answers, x.port ≠ port) :
    takeAnswer port answers = none := by
  induction answers with
  | nil => rfl
  | cons x answers ih =>
    obtain ⟨hx, hrest⟩ := List.forall_mem_cons.1 h
    simp [takeAnswer, hx, ih hrest]

theorem ioRead_queued {s : State} {port : Port} {v : Word} {left : List IoAnswer}
    (h : takeAnswer port s.ioAnswers = some (v, left)) : s.ioRead port = (v, { s with ioAnswers := left }) := by
  rw [State.ioRead, h]

theorem ioRead_free {s : State} {port : Port} (h : takeAnswer port s.ioAnswers = none) :
    s.ioRead port = (Config.ioAnswer s.draws port s.ioEvents, s.drawn 1) := by
  rw [State.ioRead, h]

/-! IN and OUT -/

theorem exec_in {s u : State} {port : Port} {v : Word} (h : s.ioRead port = (v, u)) :
    exec (.inPort port) s = .next ((u.setReg .acc v).setZNP v) := by
  rw [exec, execIn_eq, h]

theorem exec_out (port : Port) (s : State) :
    exec (.outPort port) s = .next ((s.ioWrite port (s.reg .acc)).setZNP (s.reg .acc)) := rfl

/-- Settles O32: the queue of the state IN goes on with is what is left, or as before where the word is a free one. -/
theorem inFillsAccumulator : Obligations.InFillsAccumulator := by
  intro port s
  refine ⟨fun before v after hqueue hbefore => ?_, fun hnone => ?_⟩
  · have hread := ioRead_queued (hqueue ▸ takeAnswer_append hbefore v after)
    obtain ⟨hacc, hflags, hregs, hmem, ⟨hevents, hanswers⟩, hcontrol⟩ :=
      acc_result { s with ioAnswers := before ++ after } v
    exact ⟨_, exec_in hread, hacc, hanswers, hflags, hregs, hmem, hevents, hcontrol⟩
  · obtain ⟨hacc, hflags, hframe⟩ := acc_result (s.drawn 1) (Config.ioAnswer s.draws port s.ioEvents)
    exact ⟨_, exec_in (ioRead_free (takeAnswer_none hnone)), hacc.symm ▸ hflags, hframe⟩

/-- Settles O33: the status update follows the event. -/
theorem outSendsOneEvent : Obligations.OutSendsOneEvent := by
  intro port s
  obtain ⟨hflags, hregs, hmem, ⟨hevents, hanswers⟩, hcontrol⟩ :=
    setZNP_effect (s.ioWrite port (s.reg .acc)) (s.reg .acc)
  exact ⟨_, exec_out port s, hevents, hanswers, hflags, hregs, hmem, hcontrol⟩

/-! Page registers -/

/-- A register file is what its sixteen registers read as. -/
theorem regFile_eq_of_get {f g : RegFile} (h : ∀ r, f.get r = g.get r) : f = g := by
  cases f
  cases g
  rw [RegFile.mk.injEq]
  exact ⟨h .r0, h .r1, h .r2, h .r3, h .r4, h .r5, h .r6, h .r7, h .acc, h .rs, h .rj, h .rc, h .rd, h .rx, h .rb, h .pc⟩

section Commute
variable (s : State) {r : Reg} (v : Word)

/-- Writes of two registers may be made in either order. -/
theorem setReg_comm {d : Reg} (hd : d ≠ r) (w : Word) : (s.setReg r v).setReg d w = (s.setReg d w).setReg r v := by
  have hregs : (s.regs.set r v).set d w = (s.regs.set d w).set r v := regFile_eq_of_get fun q => by
    simp only [RegFile.get_set]
    by_cases hq : q = d <;> simp [hq, hd]
  show ({ s with regs := (s.regs.set r v).set d w } : State) = _
  rw [hregs]
  rfl

theorem setFlag_setReg (hr : .rs ≠ r) (f : Flag) (b : Bool) :
    (s.setReg r v).setFlag f b = (s.setFlag f b).setReg r v := by
  rw [State.setFlag, State.reg_setReg, if_neg hr, setReg_comm s v hr, State.setFlag]

theorem setZNP_setReg (hr : .rs ≠ r) (w : Word) : (s.setReg r v).setZNP w = (s.setZNP w).setReg r v := by
  simp only [State.setZNP, setFlag_setReg _ v hr]

/-- The port is read without any register. -/
theorem ioRead_setReg (port : Port) :
    (s.setReg r v).ioRead port = ((s.ioRead port).1, (s.ioRead port).2.setReg r v) := by
  rcases s.ioRead_cases port with ⟨w, left, htake, hread⟩ | ⟨htake, hread⟩
  · rw [hread]; exact ioRead_queued htake
  · rw [hread]; exact ioRead_free htake

variable {s} {t : State} {port : Port}

theorem exec_in_setReg (hacc : .acc ≠ r) (hrs : .rs ≠ r) (h : exec (.inPort port) s = .next t) :
    exec (.inPort port) (s.setReg r v) = .next (t.setReg r v) := by
  cases (execIn_eq port s).symm.trans h
  rw [exec_in (ioRead_setReg s v port), setReg_comm _ v hacc, setZNP_setReg _ v hrs]

theorem exec_out_setReg (hacc : .acc ≠ r) (hrs : .rs ≠ r) (h : exec (.outPort port) s = .next t) :
    exec (.outPort port) (s.setReg r v) = .next (t.setReg r v) := by
  cases (exec_out port s).symm.trans h
  have hwrite : ∀ w, (s.setReg r v).ioWrite port w = (s.ioWrite port w).setReg r v := fun _ => rfl
  rw [exec_out, State.reg_setReg, if_neg hacc, hwrite, setZNP_setReg _ v hrs]

end Commute

/-- Settles O48: IN and OUT use no register but the accumulator and RS, so a write to another one may be made before or after. -/
theorem portsIgnorePageRegisters : Obligations.PortsIgnorePageRegisters := by
  intro port s t r v hr
  obtain ⟨hacc, hrs⟩ : .acc ≠ r ∧ .rs ≠ r := by rcases hr with rfl | rfl <;> decide
  exact ⟨exec_in_setReg v hacc hrs, exec_out_setReg v hacc hrs⟩

end Sys2Proof.Laws.Ports
end

section
/-! PROOFS. What every instruction and every step keeps of the machine besides registers and memory (R31, R52; log 27): the
parameters, the halt state but for HALT, and the events sent; and so, on a platform that backs every word, that every step and
every run completes (R120, D22). -/

namespace Sys2Proof.Laws.Completion

open Sys2Proof.Machine Sys2Proof.Laws.Access Sys2Proof.Laws.Control

section Kept
variable {s t : State}

theorem storeWord_sameControl {a : WordAddr} {v : Word} (h : s.storeWord a v = .ok t) :
    SameControl s t ∧ t.ioEvents = s.ioEvents := by
  rcases s.storeWord_cases a v with ⟨-, written⟩ | ⟨-, -, dropped⟩ | ⟨-, -, fault⟩ | ⟨-, fault⟩
  · cases written.symm.trans h; exact ⟨⟨rfl, rfl⟩, rfl⟩
  · cases dropped.symm.trans h; exact ⟨⟨rfl, rfl⟩, rfl⟩
  · cases fault.symm.trans h
  · cases fault.symm.trans h

/-- Every instruction but HALT keeps the halt state and the parameters, and sends at most an event after the earlier ones. -/
theorem exec_sameControl {i : Instr} (hi : i ≠ .halt) (h : exec i s = .next t) :
    SameControl s t ∧ s.ioEvents <+: t.ioEvents := by
  cases i with
  | halt => exact absurd rfl hi
  | nop => cases h; exact ⟨⟨rfl, rfl⟩, List.prefix_rfl⟩
  | jump maska =>
    rcases ControlTransfer.execJump_next h with ⟨-, rfl⟩ | ⟨-, rfl⟩ <;> exact ⟨⟨rfl, rfl⟩, List.prefix_rfl⟩
  | load adresa =>
    obtain ⟨v, -, hv⟩ := orFault_next h
    cases hv
    simp [SameControl]
  | store adresa =>
    obtain ⟨u, hu, ht⟩ := orFault_next h
    cases ht
    obtain ⟨hcontrol, hevents⟩ := storeWord_sameControl hu
    exact ⟨by simpa [SameControl] using hcontrol, by simp [hevents]⟩
  | inPort port =>
    cases (execIn_eq port s).symm.trans h
    obtain ⟨-, -, hevents, hhalted, hparams⟩ := s.ioRead_frame port
    simp [SameControl, hevents, hhalted, hparams]
  | sub dst fst snd =>
    cases (execSub_eq dst fst snd s).symm.trans h
    obtain ⟨n, hn⟩ := s.subCarry_frame (s.reg fst) (s.reg snd)
    simp [SameControl, hn]
  | shift ind src np =>
    cases h
    obtain ⟨-, -, hframe, -⟩ := Alu.acc_setShiftFlags_result s (shiftWord ind (s.reg src) np) (s.reg src) np
    obtain ⟨-, ⟨hevents, -⟩, hcontrol⟩ := hframe
    exact ⟨hcontrol, hevents ▸ List.prefix_rfl⟩
  | li | mov | notReg | add | orReg | andReg | xorReg | outPort => cases h; simp [SameControl]

theorem exec_params {i : Instr} (h : exec i s = .next t) : t.params = s.params := by
  by_cases hi : i = .halt
  · subst hi
    cases h
    rfl
  · exact (exec_sameControl hi h).1.2

theorem step_params (h : step s = .next t) : t.params = s.params := by
  rcases step_next h with ⟨-, rfl⟩ | ⟨-, -, hx⟩
  · rfl
  · exact (exec_params hx).trans s.advancePc_params

/-- Settles O44: PC's increment leaves all three to the instruction. -/
theorem onlyHaltHalts : Obligations.OnlyHaltHalts := by
  intro s t hr h
  rcases step_next h with ⟨hh, -⟩ | ⟨-, -, hx⟩
  · rw [hr] at hh
    cases hh
  by_cases hi : decodeWord (s.mem.readWord s.fetchAddress) = .halt
  · rw [hi] at hx
    cases hx
    exact ⟨iff_of_true (State.halt_halted _) hi, rfl, List.prefix_rfl⟩
  · obtain ⟨⟨hhalted, hparams⟩, hevents⟩ := exec_sameControl hi hx
    exact ⟨iff_of_false (by simp [hhalted, hr]) hi, hparams, hevents⟩

end Kept

/-! Completion (R120, D22) -/

/-- What backs the words is a matter of the parameters alone. -/
theorem fullyBacked_of_params_eq {s t : State} (h : t.params = s.params) (hs : s.fullyBacked) : t.fullyBacked := by
  intro a
  rw [State.kindAt, h]
  exact hs a

/-- STORE completes where every word is backed: the word is written, or dropped where it is read-only. -/
theorem exec_store_completes {s : State} (hs : s.fullyBacked) (adresa : Offset) :
    ∃ t, exec (.store adresa) s = .next t := by
  obtain ⟨hbacked, hdrops⟩ := hs (s.dataAddress adresa)
  cases hk : s.kindAt (s.dataAddress adresa) with
  | readWrite => exact ⟨_, exec_store_readWrite hk⟩
  | readOnly => exact ⟨_, exec_store_dropped hk (hdrops hk)⟩
  | absent => exact absurd hk hbacked

/-- Every instruction completes where every word is backed: only LOAD and STORE can stop at all. -/
theorem exec_completes {s : State} (hs : s.fullyBacked) (i : Instr) : ∃ t, exec i s = .next t := by
  cases i with
  | load adresa => exact ⟨_, exec_load_backed (hs (s.dataAddress adresa)).1⟩
  | store adresa => exact exec_store_completes hs adresa
  | jump maska =>
    obtain ⟨t, hexec, -⟩ := jumpGoesToRj maska s
    exact ⟨t, hexec⟩
  | _ => exact ⟨_, rfl⟩

theorem step_completes {s : State} (hs : s.fullyBacked) : ∃ t, step s = .next t := by
  cases hr : s.halted with
  | true => exact ⟨s, step_halted hr⟩
  | false =>
    rw [step_running hr (hs s.fetchAddress).1]
    exact exec_completes (fullyBacked_of_params_eq s.advancePc_params hs) _

/-- Settles O38: the parameters a platform is fully backed by stay. -/
theorem everyStepCompletes : Obligations.EveryStepCompletes := by
  intro s hs
  obtain ⟨t, h⟩ := step_completes hs
  exact ⟨t, h, fullyBacked_of_params_eq (step_params h) hs⟩

/-- Settles O39, by induction on the number of steps, over every fully backed state at once. -/
theorem noRunEverFaults : Obligations.NoRunEverFaults := by
  intro n
  induction n with
  | zero => exact fun s _ => ⟨s, rfl⟩
  | succ n ih =>
    intro s hs
    obtain ⟨t, hstep, ht⟩ := everyStepCompletes s hs
    obtain ⟨u, hrun⟩ := ih t ht
    exact ⟨u, (run_succ_of_step hstep n).trans hrun⟩

end Sys2Proof.Laws.Completion
end

section
/-! PROOFS. A STORE and the access that follows it (R52, R54; D24, D25): a LOAD, and the next fetch. -/

namespace Sys2Proof.Laws.MemoryOrder

open Sys2Proof.Machine Sys2Proof.Laws.Access Sys2Proof.Laws.Results

/-- Pages are joined, not added (R41): one page register and two fields give one address only for equal fields. -/
theorem dataAddress_inj {s : State} {a b : Offset} : s.dataAddress a = s.dataAddress b ↔ a = b := by
  refine ⟨fun h => ?_, congrArg _⟩
  obtain ⟨-, -, ha⟩ := MemoryFrame.addressIsConcatenation (s.reg .rd) a
  obtain ⟨-, -, hb⟩ := MemoryFrame.addressIsConcatenation (s.reg .rd) b
  exact ha.symm.trans ((congrArg _ h).trans hb)

/-- A LOAD that completes gives the word at its address. -/
theorem exec_load_acc {s t : State} {adresa : Offset} (h : exec (.load adresa) s = .next t) :
    t.reg .acc = s.mem.readWord (s.dataAddress adresa) := by
  by_cases hk : s.kindAt (s.dataAddress adresa) = .absent
  · cases (exec_load_absent hk).symm.trans h
  · cases (exec_load_backed hk).symm.trans h
    exact (acc_result s _).1

/-- What a STORE to read-write memory leaves for the next access: its word in memory, and every register but RS. -/
theorem exec_store_next {s t : State} {adresa : Offset} (hk : s.kindAt (s.dataAddress adresa) = .readWrite)
    (h : exec (.store adresa) s = .next t) :
    t.mem = s.mem.writeWord (s.dataAddress adresa) (s.reg .acc) ∧ SameRegsBut [.rs] s t ∧ SameControl s t := by
  cases (exec_store_readWrite hk).symm.trans h
  obtain ⟨-, hregs, -, -, hcontrol⟩ :=
    setZNP_effect { s with mem := s.mem.writeWord (s.dataAddress adresa) (s.reg .acc) } (s.reg .acc)
  exact ⟨State.setZNP_mem _ _, hregs, hcontrol⟩

/-- Settles O45: the LOAD reads the memory the STORE wrote, at the same address or at another. -/
theorem loadReadsLastStore : Obligations.LoadReadsLastStore := by
  intro a b s t u hk hstore hload
  obtain ⟨hmem, hregs, -⟩ := exec_store_next hk hstore
  have haddr : t.dataAddress b = s.dataAddress b := by
    rw [State.dataAddress, hregs .rd (by decide), State.dataAddress]
  rw [exec_load_acc hload, hmem, haddr]
  split
  next hab => rw [hab, Memory.readWord_writeWord]
  next hab => rw [Memory.readWord_writeWord_of_ne _ _ _ _ (mt dataAddress_inj.mp hab)]

/-- Settles O46: the STORE moves neither PC nor RC nor MEM_MAP, so the next fetch is from its word. -/
theorem storeSeenByNextFetch : Obligations.StoreSeenByNextFetch := by
  intro a s hr hk haddr
  have hstore := exec_store_readWrite (haddr ▸ hk)
  obtain ⟨hmem, hregs, hhalted, hparams⟩ := exec_store_next (haddr ▸ hk) hstore
  refine ⟨_, hstore, ?_⟩
  generalize State.setZNP _ (s.reg .acc) = t at hmem hregs hhalted hparams
  have hfetch : t.fetchAddress = s.fetchAddress := by
    rw [State.fetchAddress, hregs .rc (by decide), hregs .pc (by decide), State.fetchAddress]
  have hkind : t.kindAt t.fetchAddress = .readWrite := by rw [hfetch, State.kindAt, hparams]; exact hk
  rw [step_running (hhalted.trans hr) (by simp [hkind]), hmem, hfetch, haddr, Memory.readWord_writeWord]

end Sys2Proof.Laws.MemoryOrder
end

section
/-! PROOFS. Reset (R34, R140; D1): the state after it, and what it does to a machine in any state. -/

namespace Sys2Proof.Laws.Reset

open Sys2Proof.Machine

theorem reset_reg (r : Reg) : State.reset.reg r = 0 := by
  cases r <;> rfl

/-- Settles O50. -/
theorem resetStateValues : Obligations.ResetStateValues :=
  ⟨reset_reg .pc, reset_reg .rc, rfl, reset_reg, fun _ => rfl, rfl, rfl, rfl⟩

/-- Settles O51. -/
theorem resetOfRunningMachine : Obligations.ResetOfRunningMachine := fun _ =>
  ⟨rfl, rfl, rfl, fun _ => rfl, ⟨rfl, rfl⟩, rfl⟩

end Sys2Proof.Laws.Reset
end
